-- ==== Sys2Proof/Config.lean ====
section
/-! DEFINITION. The numbers of the block (00_scope.md R8) on this hardware, and the one value the spec
leaves open. -/

namespace Sys2Proof.Config

/-- This hardware's value of the parameter `MEM_SIZE` (R8, R10): N = 100 (90_conflicts.md C6). -/
def memSize : Nat := 100

/-- `WORD_MAX`, the largest word magnitude (R8, R70). -/
def wordMax : Int := 9999

/-- `OPERAND_MAX`, the largest operand (R8, R73). -/
def operandMax : Nat := 99

/-- `ENTRY_SENTINEL`, the console value that ends interactive entry (R8, R257). -/
def entrySentinel : Int := -99999

/-- `DUMP_ON_FALLOFF` (R8, R102): whether a dump is printed when the pc runs past memory. The spec
leaves it OPEN (92_eei_decisions.md D11), so it has no body: a claim holds for both values. Log 11. -/
opaque dumpOnFalloff : Bool

end Sys2Proof.Config
end

