-- ==== Sys2Proof/Word.lean ====
section
/-! DEFINITION. The word of 30_encoding.md R70: a signed decimal integer, with no bits and no bytes
(20_memory.md R56). A word is held as an `Int`, on which the machine computes exactly; that it is in the
Word range is `IsWord`, which every step keeps and which is not part of the type. DESIGN CHOICE, log 1. -/

namespace Sys2Proof

/-- A value is a Word when its magnitude is at most 9999 (R11, R70). -/
abbrev IsWord (v : Int) : Prop := -Config.wordMax ≤ v ∧ v ≤ Config.wordMax

end Sys2Proof
end

