-- ==== Sys2Proof/Syntax.lean ====
section
/-! DEFINITION. The thirteen instructions (30_encoding.md R80), one constructor per row of the opcode
table. -/

namespace Sys2Proof

/-- An instruction with its operand (30_encoding.md R71, R72): a memory location `a`, a branch target
`t`, or the operand `x` that HALT and PAUSE accept and ignore (45_halt_pause.md R170). -/
inductive Instr where
  | read (a : Nat)
  | write (a : Nat)
  | load (a : Nat)
  | store (a : Nat)
  | add (a : Nat)
  | subtract (a : Nat)
  | divide (a : Nat)
  | multiply (a : Nat)
  | branch (t : Nat)
  | branchNeg (t : Nat)
  | branchZero (t : Nat)
  | halt (x : Nat)
  | pause (x : Nat)
deriving DecidableEq, Repr

/-- The operand field, whatever the instruction uses it for (R72). -/
def Instr.operand : Instr → Nat
  | .read a => a
  | .write a => a
  | .load a => a
  | .store a => a
  | .add a => a
  | .subtract a => a
  | .divide a => a
  | .multiply a => a
  | .branch t => t
  | .branchNeg t => t
  | .branchZero t => t
  | .halt x => x
  | .pause x => x

end Sys2Proof
end

