-- ==== Sys2Proof/WellFormed.lean ====
section
/-! DEFINITION. Which instructions a word can hold: the operand field has two decimal digits
(30_encoding.md R73). There is no other check: no operand value is reserved (R83). -/

namespace Sys2Proof

/-- The operand fits its field, 0..99 (R73). -/
abbrev Instr.WellFormed (i : Instr) : Prop := i.operand ≤ Config.operandMax

end Sys2Proof
end

