-- ==== Sys2Proof/Decode.lean ====
section
/-! DEFINITION. The word codec and the opcode map (30_encoding.md R74 to R82): decoding of any word,
and the encoder. -/

namespace Sys2Proof

/-- The thirteen operations by the source's names (00_scope.md R17). -/
inductive Op where
  | read | write | load | store | add | subtract | divide | multiply
  | branch | branchNeg | branchZero | halt | pause
deriving DecidableEq, Repr

/-- Every operation, in the opcode table's order. -/
def allOps : List Op :=
  [.read, .write, .load, .store, .add, .subtract, .divide, .multiply,
   .branch, .branchNeg, .branchZero, .halt, .pause]

/-- The opcode set (R79): thirteen numbers, whichever operation each of them stands for. -/
def opcodeSet : List Int := [10, 11, 20, 21, 30, 31, 32, 33, 40, 41, 42, 50, 51]

/-- The decade of an operation's group (R80): input and output, load and store, arithmetic, branches,
halt and pause. -/
def Op.decade : Op → Int
  | .read | .write => 1
  | .load | .store => 2
  | .add | .subtract | .divide | .multiply => 3
  | .branch | .branchNeg | .branchZero => 4
  | .halt | .pause => 5

/-- `OPCODE_ASSIGNMENT`, the parameter (00_scope.md R8, 10_state.md R36, R80): a bijection of the opcode
set onto the operations that keeps the decade grouping. That every number of the set is met follows from
the three conditions, since there are as many operations as numbers. -/
structure OpcodeAssignment where
  /-- the number of an operation -/
  code : Op → Int
  /-- it is a number of the set (R79) -/
  inSet : ∀ op, code op ∈ opcodeSet
  /-- it is in the decade of the operation's group (R80) -/
  keepsDecade : ∀ op, code op / 10 = op.decade
  /-- no two operations share a number -/
  injective : ∀ a b, code a = code b → a = b

/-- `OpOf` (40_cycle.md R101): the operation an assignment gives an integer, or none. -/
def OpcodeAssignment.opOf (m : OpcodeAssignment) (opcode : Int) : Option Op :=
  allOps.find? (fun op => m.code op == opcode)

/-- `HALT_CODE` (40_cycle.md R101). -/
def OpcodeAssignment.haltCode (m : OpcodeAssignment) : Int := m.code .halt

/-- The number of each operation in the table of R80, this hardware's assignment. UNVERIFIED, log 10: the
pairing is the spec's decision D1. -/
def codeOf : Op → Int
  | .read => 10
  | .write => 11
  | .load => 20
  | .store => 21
  | .add => 30
  | .subtract => 31
  | .divide => 32
  | .multiply => 33
  | .branch => 40
  | .branchNeg => 41
  | .branchZero => 42
  | .halt => 50
  | .pause => 51

/-- The value of the parameter on this hardware (00_scope.md R8): the table of R80. -/
def opcodeAssignment : OpcodeAssignment where
  code := codeOf
  inSet op := by cases op <;> decide
  keepsDecade op := by cases op <;> decide
  injective a b h := by cases a <;> cases b <;> first | rfl | exact absurd h (by decide)

/-- `OpOf` under this hardware's assignment. -/
def opOf (opcode : Int) : Option Op := opcodeAssignment.opOf opcode

/-- `HALT_CODE` under this hardware's assignment. -/
def haltCode : Int := opcodeAssignment.haltCode

/-- `Decode` of the codec (R74): opcode and operand of any word, both with the sign of the word. -/
def splitWord (w : Int) : Int × Int := (w.tdiv 100, w - 100 * w.tdiv 100)

/-- `Encode` of the codec (R77), with no range check. -/
def joinWord (opcode operand : Int) : Int := opcode * 100 + operand

/-- `IsValidWord` (R76): how a dump renders a cell. It does not govern execution. -/
def isValidWord (w : Int) : Bool :=
  w == 0 || (decide (1000 ≤ w) && opcodeSet.contains (splitWord w).1)

/-- The instruction that an operation and an operand make. -/
def instrOf (op : Op) (n : Nat) : Instr :=
  match op with
  | .read => .read n
  | .write => .write n
  | .load => .load n
  | .store => .store n
  | .add => .add n
  | .subtract => .subtract n
  | .divide => .divide n
  | .multiply => .multiply n
  | .branch => .branch n
  | .branchNeg => .branchNeg n
  | .branchZero => .branchZero n
  | .halt => .halt n
  | .pause => .pause n

/-- The operation of an instruction. -/
def Instr.op : Instr → Op
  | .read _ => .read
  | .write _ => .write
  | .load _ => .load
  | .store _ => .store
  | .add _ => .add
  | .subtract _ => .subtract
  | .divide _ => .divide
  | .multiply _ => .multiply
  | .branch _ => .branch
  | .branchNeg _ => .branchNeg
  | .branchZero _ => .branchZero
  | .halt _ => .halt
  | .pause _ => .pause

/-- What a word decodes to (R81): an instruction, or the decode-time error. -/
inductive Decoded where
  | instr (i : Instr)
  | illegalOpcode
deriving DecidableEq, Repr

/-- The decoder, total on every integer (R81), under an assignment: a word whose opcode is not in the set
is illegal (R82). -/
def OpcodeAssignment.decode (m : OpcodeAssignment) (w : Int) : Decoded :=
  match m.opOf (splitWord w).1 with
  | none => .illegalOpcode
  | some op => .instr (instrOf op (splitWord w).2.toNat)

/-- The word of an instruction (R71) under an assignment. -/
def OpcodeAssignment.encode (m : OpcodeAssignment) (i : Instr) : Int := joinWord (m.code i.op) i.operand

/-- The decoder of this hardware. -/
def decode (w : Int) : Decoded := opcodeAssignment.decode w

/-- The encoder of this hardware. -/
def encode (i : Instr) : Int := opcodeAssignment.encode i

/-- The host's reading of a table row: the row's number `w` IS the decimal word (R95), so `nbits`,
which the table does not give, plays no part. DESIGN CHOICE, log 8. -/
def decodeTableWord (nbits w : Nat) : Option Instr :=
  match decode (w : Int) with
  | .instr i => some i
  | .illegalOpcode => none

end Sys2Proof
end

