-- ==== Sys2Proof/Machine/Parameters.lean ====
section
/-! DEFINITION. The implementation parameters a machine takes (00_scope.md R8), and their values on this
hardware. They are configuration and no part of the state (10_state.md R36). -/

namespace Sys2Proof

/-- `MEM_SIZE`, `OPCODE_ASSIGNMENT` and `DUMP_ON_FALLOFF` (00_scope.md R8, 10_state.md R36). The other
numbers of R8 are constants of `Config`. -/
structure Parameters where
  /-- `MEM_SIZE`, the number N of memory words (R10) -/
  memSize : Nat
  /-- N is at least 1 (R10, 92_eei_decisions.md D12) -/
  memSize_pos : 1 ≤ memSize
  /-- `OPCODE_ASSIGNMENT` (30_encoding.md R80) -/
  opcodes : OpcodeAssignment
  /-- `DUMP_ON_FALLOFF` (40_cycle.md R102) -/
  dumpOnFalloff : Bool

/-- This hardware's values (00_scope.md R8): N = 100, the table of 30_encoding.md R80, and the open
`DUMP_ON_FALLOFF`. Logs 9, 10, 11. -/
def hardware : Parameters where
  memSize := Config.memSize
  memSize_pos := by decide
  opcodes := opcodeAssignment
  dumpOnFalloff := Config.dumpOnFalloff

end Sys2Proof
end

