-- ==== Sys2Proof/Machine/State.lean ====
section
/-! DEFINITION. The architectural state of the core (10_state.md R20), the events it prints (R33), the
instruction image the host hands over (46_image_patch.md R190), and the state before the first Run
(70_reset_and_hazards.md R251). -/

namespace Sys2Proof.Machine

/-- The cause of a runtime fault (60_exceptions.md R221). -/
inductive FaultCause where
  | divideByZero
  | outOfRange (loc : Int)
  | illegalOpcode
  | overflow
  | inputRange
deriving DecidableEq, Repr

/-- Why a run ended (10_state.md R27). -/
inductive HaltReason where
  | halt
  | fellOff
  | fault (cause : FaultCause)
deriving DecidableEq, Repr

/-- The run state (10_state.md R27). -/
inductive RunState where
  | idle
  | loading
  | executing
  | paused
  | halted (reason : HaltReason)
deriving DecidableEq, Repr

/-- The content of a dump (45_halt_pause.md R173): the registers and, per cell, the word with the
`IsValidWord` flag that selects its rendering. -/
structure DumpRecord where
  acc : Int
  ic  : Nat
  ir  : Int
  opc : Int
  opd : Int
  mem : List (Int × Bool)
deriving DecidableEq, Repr

/-- What the core prints (10_state.md R33); the text of an event is not modelled by the spec. -/
inductive OutEvent where
  | entryPrompt (n : Nat)
  | readPrompt
  | written (v : Int)
  | pausePrompt
  | dump (d : DumpRecord)
  | faultReport (cause : FaultCause) (loc : Nat) (word : Int)
deriving DecidableEq, Repr

/-- Free text: the characters of a description or of a line of an image file. Log 27. -/
abbrev Text := List Char

/-- An instruction image (46_image_patch.md R190): `words[i]` is the word for location i. -/
structure Image where
  words       : List Int
  description : Option Text
deriving DecidableEq, Repr

/-- What the host asks when it starts a run (10_state.md R38): `Run()` or `Run(image)`. -/
inductive RunRequest where
  | entry
  | image (img : Image)
deriving DecidableEq, Repr

/-- The cells of memory by location, in one canonical form (`Memory.wf`). A cell that is not listed
reads 0, the reset contents (10_state.md R28). The unit is a word, not a byte (20_memory.md R56). Log 2. -/
abbrev Memory := List (Nat × Int)

/-- The state of the core: the tuple of 10_state.md R20, and below it the model's own record of a
hold and of what the host hands over (R14, R32, R38). -/
structure State where
  /-- accumulator (R21) -/
  acc : Int
  /-- current-instruction pointer (R22) -/
  pc : Nat
  /-- instruction register (R23) -/
  ir : Int
  /-- operation code register (R24) -/
  opc : Int
  /-- operand register (R25) -/
  opd : Int
  /-- instruction counter (R26) -/
  ic : Nat
  /-- run state (R27) -/
  rs : RunState
  /-- memory (R28) -/
  mem : Memory
  /-- console output history, oldest first (R33) -/
  out : List OutEvent
  /-- a READ or entry prompt has been printed and its answer has not come (R14, R38). Log 4. -/
  prompted : Bool
  /-- integers the console supplies from here on, next first (R32). Log 3. -/
  answers : List Int
  /-- PAUSE acknowledgments the console supplies from here on, each `wantDump` (R32, R176). Log 3. -/
  acks : List Bool
  /-- runs the host requests from here on, each when the machine is free (R38, R254). Log 3. -/
  requests : List RunRequest
deriving DecidableEq, Repr

/-- How a call of the block ends in an error of the source's own. A runtime fault is NOT one of
these: it is taken, and the run ends in `RunState.halted (.fault _)` (60_exceptions.md R222). -/
inductive Fault where
  /-- Raised by the patch engine (`resolve`) for the first entry whose target line has no location
  (46_image_patch.md R204); no step raises it. Safe: no image is handed on. -/
  | undefinedReference (line : Int)
deriving DecidableEq, Repr

/-- The refusals (00_scope.md R14; 93_implementation_defined.md I30 to I37): an input to the block that
has no meaning. -/
inductive Refusal where
  /-- An instruction without a meaning; raised by no arm of `exec`. Safe. -/
  | notModelled (mnemonic : String)
  /-- Raised by `startRun` for a Run while the machine is busy (70_reset_and_hazards.md R254). Safe. -/
  | runRefused (rs : RunState)
  /-- Raised by `startRun`, `append` and `overwriteAt` for a value that is no Word
  (70_reset_and_hazards.md R260, 46_image_patch.md R194); by `step` only through `startRun`. Safe. -/
  | imageWord (v : Int)
  /-- Raised by `overwriteAt` for a location outside the image (46_image_patch.md R192). Safe. -/
  | imageLocation (loc : Int)
  /-- Raised by `resolve` for an entry whose location is outside the image (46_image_patch.md R205). Safe. -/
  | patchLocation (loc : Int)
  /-- Raised by `resolve` for an entry whose word is no branch (46_image_patch.md R205). Safe. -/
  | patchNotBranch (loc : Int)
  /-- Raised by `resolve` for a resolved location above 99 (46_image_patch.md R205). Safe. -/
  | patchTargetRange (target : Nat)
  /-- Raised by `readImageFile` for a malformed or repeated line (46_image_patch.md R211). Safe. -/
  | imageFile
deriving DecidableEq, Repr

/-- The outcome of a step or of a request. -/
abbrev Result := Host.Outcome State Fault Refusal

/-- The constructed machine, before the first Run (70_reset_and_hazards.md R251): Idle, every register
and every cell 0. That nothing is printed, held or supplied yet is the model's: DESIGN CHOICE, logs 3, 4, 7. -/
def State.reset : State where
  acc := 0
  pc := 0
  ir := 0
  opc := 0
  opd := 0
  ic := 0
  rs := .idle
  mem := []
  out := []
  prompted := false
  answers := []
  acks := []
  requests := []

end Sys2Proof.Machine
end

