-- ==== Sys2Proof/Machine/Ops.lean ====
section
/-! DEFINITION. The named operations over memory and registers: Get, Put, Clear and Dump
(20_memory.md R51 to R54), fetch and decode (40_cycle.md R103, R104), the register reset and the bulk
load (70_reset_and_hazards.md R252, R260), and taking a runtime fault (60_exceptions.md R222). What depends on
the size of memory takes the parameters; a name without them is the operation on this hardware. -/

namespace Sys2Proof.Machine

/-! ### Memory as data -/

/-- The word of a cell; an unlisted cell holds 0 (10_state.md R28). -/
def Memory.read : Memory → Nat → Int
  | [], _ => 0
  | (k, v) :: m, a => if k = a then v else Memory.read m a

/-- Every entry for location `a` taken out: the cell then holds 0. -/
def Memory.erase (m : Memory) (a : Nat) : Memory := m.filter (fun c => c.1 != a)

/-- An entry put in before the first larger location. -/
def Memory.insert : Memory → Nat → Int → Memory
  | [], a, v => [(a, v)]
  | (k, w) :: m, a, v => if a < k then (a, v) :: (k, w) :: m else (k, w) :: Memory.insert m a v

/-- Cell `a` set to `v`; writing 0 unlists the cell, so that equal memories are equal lists. -/
def Memory.write (m : Memory) (a : Nat) (v : Int) : Memory :=
  if v = 0 then m.erase a else (m.erase a).insert a v

/-- The canonical form: locations strictly rising, no entry equal to the 0 an unlisted cell reads. -/
abbrev Memory.wf (m : Memory) : Prop :=
  m.Pairwise (fun c d => c.1 < d.1) ∧ ∀ c ∈ m, c.2 ≠ 0

/-- The image words copied to locations `i`, `i + 1`, ... as far as memory goes
(70_reset_and_hazards.md R260): locations at or beyond N are not loaded and raise nothing. -/
def Memory.loadFrom (p : Parameters) : Nat → List Int → Memory → Memory
  | _, [], m => m
  | i, w :: ws, m => if i < p.memSize then Memory.loadFrom p (i + 1) ws (m.write i w) else m

/-! ### Get, Put, Clear, Dump -/

/-- The bounds of 20_memory.md R51: a location in [0, N). -/
abbrev InMemoryUnder (p : Parameters) (a : Int) : Prop := 0 ≤ a ∧ a < p.memSize

/-- The bounds on this hardware. -/
abbrev InMemory (a : Int) : Prop := InMemoryUnder hardware a

/-- `Get` (20_memory.md R51): the word at a location, or none where it is OutOfRange. -/
def State.getUnder (p : Parameters) (s : State) (a : Int) : Option Int :=
  if InMemoryUnder p a then some (s.mem.read a.toNat) else none

/-- `Get` on this hardware. -/
def State.get (s : State) (a : Int) : Option Int := s.getUnder hardware a

/-- `Put` (20_memory.md R52): one word written, or none, and nothing written, where it is OutOfRange. -/
def State.putUnder (p : Parameters) (s : State) (a : Int) (v : Int) : Option State :=
  if InMemoryUnder p a then some { s with mem := s.mem.write a.toNat v } else none

/-- `Put` on this hardware. -/
def State.put (s : State) (a : Int) (v : Int) : Option State := s.putUnder hardware a v

/-- `Clear` (20_memory.md R53): every cell 0. -/
def State.clear (s : State) : State := { s with mem := [] }

/-- The memory part of a dump (20_memory.md R54): every cell with its rendering flag. -/
def dumpCells (p : Parameters) (m : Memory) : List (Int × Bool) :=
  (List.range p.memSize).map (fun a => (m.read a, isValidWord (m.read a)))

/-- `DumpOf` (45_halt_pause.md R173). -/
def dumpOfUnder (p : Parameters) (s : State) : DumpRecord where
  acc := s.acc
  ic := s.ic
  ir := s.ir
  opc := s.opc
  opd := s.opd
  mem := dumpCells p s.mem

/-- `DumpOf` on this hardware. -/
def dumpOf (s : State) : DumpRecord := dumpOfUnder hardware s

/-! ### Register updates -/

/-- `acc <- v` (00_scope.md R12). -/
def State.setAcc (s : State) (v : Int) : State := { s with acc := v }

/-- `pc <- pc + 1` (40_cycle.md R107). -/
def State.advance (s : State) : State := { s with pc := s.pc + 1 }

/-- `pc <- t` of a taken branch, with no + 1 (40_cycle.md R107). -/
def State.jump (s : State) (t : Nat) : State := { s with pc := t }

/-- `rs <- r` (10_state.md R27). -/
def State.setRunState (s : State) (r : RunState) : State := { s with rs := r }

/-- `emit e` (00_scope.md R14): the event goes to the end of the history. -/
def State.emit (s : State) (e : OutEvent) : State := { s with out := s.out ++ [e] }

/-- `emit Dump(DumpOf(state))` (45_halt_pause.md R173). -/
def State.emitDump (p : Parameters) (s : State) : State := s.emit (.dump (dumpOfUnder p s))

/-- The core holds at a printed prompt (00_scope.md R14). Log 4. -/
def State.hold (s : State) : State := { s with prompted := true }

/-- The prompt's answer has come: it is consumed and `rest` is what the console supplies next
(41_io.md R123). -/
def State.takeAnswer (s : State) (rest : List Int) : State :=
  { s with answers := rest, prompted := false }

/-- One acknowledgment consumed (45_halt_pause.md R176). -/
def State.takeAck (s : State) (rest : List Bool) : State := { s with acks := rest }

/-- `ResetRegisters` (70_reset_and_hazards.md R252). -/
def State.resetRegisters (s : State) : State :=
  { s with acc := 0, pc := 0, ir := 0, opc := 0, opd := 0, ic := 0 }

/-- `Load` (70_reset_and_hazards.md R260). -/
def State.loadImage (p : Parameters) (s : State) (ws : List Int) : State :=
  { s with mem := Memory.loadFrom p 0 ws s.mem }

/-! ### Fetch and decode -/

/-- Fetch and decode of the word at the pc (40_cycle.md R103, R104): `ir <- M[pc]`, `ic <- ic + 1`,
`(opc, opd) <- Decode(ir)`, whatever the word is. The pc is below N here (R102). -/
def State.fetch (s : State) : State :=
  { s with
    ir := s.mem.read s.pc
    ic := s.ic + 1
    opc := (splitWord (s.mem.read s.pc)).1
    opd := (splitWord (s.mem.read s.pc)).2 }

/-! ### Taking a fault -/

/-- What every fault does (60_exceptions.md R222, 70_reset_and_hazards.md R258): the run is over, the
fault is reported at `loc` with the word in `ir`, and a dump follows. Nothing else changes. -/
def State.faultAt (p : Parameters) (s : State) (c : FaultCause) (loc : Nat) : State :=
  ((s.setRunState (.halted (.fault c))).emit (.faultReport c loc s.ir)).emitDump p

/-- `raise RuntimeFault` (60_exceptions.md R222): reported at the pc, which stays at the faulting
instruction. -/
def State.runtimeFault (p : Parameters) (s : State) (c : FaultCause) : State := s.faultAt p c s.pc

/-- `LoadFault` (70_reset_and_hazards.md R258): reported at the entry location `ic`. -/
def State.loadFault (p : Parameters) (s : State) (c : FaultCause) : State := s.faultAt p c s.ic

/-- The run ends because the pc passed the end of memory (40_cycle.md R102): no fault, and a dump
exactly when the open parameter says so. -/
def State.fallOff (p : Parameters) (s : State) : State :=
  if p.dumpOnFalloff then (s.setRunState (.halted .fellOff)).emitDump p
  else s.setRunState (.halted .fellOff)

end Sys2Proof.Machine
end

