-- ==== Sys2Proof/Machine/Operands.lean ====
section
/-! DEFINITION. The one operand form, a direct memory location (30_encoding.md R72), and the check on an
arithmetic result (43_arithmetic.md R141). Each check comes before any write (40_cycle.md R108), in the
order of 60_exceptions.md R225. -/

namespace Sys2Proof.Machine

/-- An instruction that reads its operand cell: OutOfRange, or on with the word (20_memory.md R51). -/
def withOperand (p : Parameters) (s : State) (a : Nat) (go : Int → State) : State :=
  (s.getUnder p a).elim (s.runtimeFault p (.outOfRange a)) go

/-- An instruction that writes its operand cell: OutOfRange with nothing written, or on with the
state that holds the word (20_memory.md R52). -/
def withStored (p : Parameters) (s : State) (a : Int) (v : Int) (go : State → State) : State :=
  (s.putUnder p a v).elim (s.runtimeFault p (.outOfRange a)) go

/-- `acc <- CheckWord(r)` and on to the next instruction (43_arithmetic.md R141): the exact result, or
Overflow with nothing written. -/
def withResult (p : Parameters) (s : State) (r : Int) : State :=
  if IsWord r then (s.setAcc r).advance else s.runtimeFault p .overflow

end Sys2Proof.Machine
end

