-- ==== Sys2Proof/Machine/Arithmetic.lean ====
section
/-! DEFINITION. ADD, SUBTRACT, DIVIDE and MULTIPLY (43_arithmetic.md R140 to R146): the accumulator is the
left operand and the memory word the right one. -/

namespace Sys2Proof.Machine

/-- ADD (43_arithmetic.md R142). -/
def execAddUnder (p : Parameters) (a : Nat) (s : State) : Result :=
  .next (withOperand p s a (fun m => withResult p s (s.acc + m)))

/-- ADD on this hardware. -/
def execAdd (a : Nat) (s : State) : Result := execAddUnder hardware a s

/-- SUBTRACT (43_arithmetic.md R143). -/
def execSubtractUnder (p : Parameters) (a : Nat) (s : State) : Result :=
  .next (withOperand p s a (fun m => withResult p s (s.acc - m)))

/-- SUBTRACT on this hardware. -/
def execSubtract (a : Nat) (s : State) : Result := execSubtractUnder hardware a s

/-- DIVIDE (43_arithmetic.md R144): the quotient is rounded toward zero and needs no range check. -/
def execDivideUnder (p : Parameters) (a : Nat) (s : State) : Result :=
  .next (withOperand p s a (fun m =>
    if m = 0 then s.runtimeFault p .divideByZero else (s.setAcc (s.acc.tdiv m)).advance))

/-- DIVIDE on this hardware. -/
def execDivide (a : Nat) (s : State) : Result := execDivideUnder hardware a s

/-- MULTIPLY (43_arithmetic.md R145): the product is exact before the check. -/
def execMultiplyUnder (p : Parameters) (a : Nat) (s : State) : Result :=
  .next (withOperand p s a (fun m => withResult p s (s.acc * m)))

/-- MULTIPLY on this hardware. -/
def execMultiply (a : Nat) (s : State) : Result := execMultiplyUnder hardware a s

end Sys2Proof.Machine
end

