-- ==== Sys2Proof/Machine/Flags.lean ====
section
/-! DEFINITION. The core has no flags and no condition codes (10_state.md R29): the conditional branches
test the accumulator at the time they execute, and these are the two tests. -/

namespace Sys2Proof.Machine

/-- BRANCHNEG's condition, "accumulator < 0" (44_branch.md R161). -/
def State.accNegative (s : State) : Bool := decide (s.acc < 0)

/-- BRANCHZERO's condition, "accumulator == 0" (44_branch.md R162). -/
def State.accZero (s : State) : Bool := decide (s.acc = 0)

/-- Where a conditional branch goes (40_cycle.md R107): the target with no + 1, or the next location. -/
def State.branchIf (s : State) (taken : Bool) (t : Nat) : State :=
  if taken then s.jump t else s.advance

end Sys2Proof.Machine
end

