-- ==== Sys2Proof/Machine/Branch.lean ====
section
/-! DEFINITION. BRANCH, BRANCHNEG and BRANCHZERO (44_branch.md R160 to R165): the target is absolute, and a
target at or beyond N ends the run at the next loop test (R164). -/

namespace Sys2Proof.Machine

/-- BRANCH (44_branch.md R160). -/
def execBranch (t : Nat) (s : State) : Result := .next (s.jump t)

/-- BRANCHNEG (44_branch.md R161). -/
def execBranchNeg (t : Nat) (s : State) : Result := .next (s.branchIf s.accNegative t)

/-- BRANCHZERO (44_branch.md R162). -/
def execBranchZero (t : Nat) (s : State) : Result := .next (s.branchIf s.accZero t)

end Sys2Proof.Machine
end

