-- ==== Sys2Proof/Machine/Control.lean ====
section
/-! DEFINITION. HALT and PAUSE (45_halt_pause.md R170 to R176). -/

namespace Sys2Proof.Machine

/-- HALT (45_halt_pause.md R171): the operand is ignored (R170); the dump is taken after the register
effects (R174). -/
def execHaltUnder (p : Parameters) (_x : Nat) (s : State) : Result :=
  .next ((s.advance.setRunState (.halted .halt)).emitDump p)

/-- HALT on this hardware. -/
def execHalt (x : Nat) (s : State) : Result := execHaltUnder hardware x s

/-- PAUSE once the operator has acknowledged (45_halt_pause.md R175): the dump if it is wanted, and the
run goes on. -/
def acknowledge (p : Parameters) (wantDump : Bool) (s : State) : State :=
  ((if wantDump then s.emitDump p else s).setRunState .executing).advance

/-- PAUSE (45_halt_pause.md R175): the prompt, then the acknowledgment. Where the console has none yet
the core stays Paused; `pausedStep` goes on from there. Log 5. -/
def execPauseUnder (p : Parameters) (_x : Nat) (s : State) : Result :=
  match s.acks with
  | [] => .next ((s.setRunState .paused).emit .pausePrompt)
  | w :: rest => .next (acknowledge p w (((s.setRunState .paused).emit .pausePrompt).takeAck rest))

/-- PAUSE on this hardware. -/
def execPause (x : Nat) (s : State) : Result := execPauseUnder hardware x s

/-- The only step of a Paused core (45_halt_pause.md R176): it takes the acknowledgment, and until one
comes nothing changes (60_exceptions.md R235). -/
def pausedStep (p : Parameters) (s : State) : Result :=
  match s.acks with
  | [] => .next s
  | w :: rest => .next (acknowledge p w (s.takeAck rest))

end Sys2Proof.Machine
end

