-- ==== Sys2Proof/Machine/Io.lean ====
section
/-! DEFINITION. READ and WRITE (41_io.md R120 to R123). -/

namespace Sys2Proof.Machine

/-- READ once the console has supplied `v` (41_io.md R120, R121): InputRange, then OutOfRange, then the
word is stored. -/
def finishRead (p : Parameters) (a : Int) (v : Int) (s : State) : State :=
  if IsWord v then withStored p s a v State.advance else s.runtimeFault p .inputRange

/-- READ (41_io.md R120): the prompt, then the console's integer. Where the console has none yet the
core holds with the prompt printed; `resumeRead` goes on from there. Logs 4, 5. -/
def execReadUnder (p : Parameters) (a : Nat) (s : State) : Result :=
  match s.answers with
  | [] => .next (s.emit .readPrompt).hold
  | v :: rest => .next (finishRead p a v ((s.emit .readPrompt).takeAnswer rest))

/-- READ on this hardware. -/
def execRead (a : Nat) (s : State) : Result := execReadUnder hardware a s

/-- A READ that is holding (10_state.md R38): it goes on at the operand register's location (R25) when
the console answers, and until then nothing changes (60_exceptions.md R235). Logs 4, 24. -/
def resumeRead (p : Parameters) (s : State) : Result :=
  match s.answers with
  | [] => .next s
  | v :: rest => .next (finishRead p s.opd v (s.takeAnswer rest))

/-- WRITE (41_io.md R122): the word is printed as it stands. -/
def execWriteUnder (p : Parameters) (a : Nat) (s : State) : Result :=
  .next (withOperand p s a (fun v => (s.emit (.written v)).advance))

/-- WRITE on this hardware. -/
def execWrite (a : Nat) (s : State) : Result := execWriteUnder hardware a s

end Sys2Proof.Machine
end

