-- ==== Sys2Proof/Machine/LoadStore.lean ====
section
/-! DEFINITION. LOAD and STORE (42_load_store.md R130 to R133). -/

namespace Sys2Proof.Machine

/-- LOAD (42_load_store.md R130). -/
def execLoadUnder (p : Parameters) (a : Nat) (s : State) : Result :=
  .next (withOperand p s a (fun v => (s.setAcc v).advance))

/-- LOAD on this hardware. -/
def execLoad (a : Nat) (s : State) : Result := execLoadUnder hardware a s

/-- STORE (42_load_store.md R132): memory first, then `acc <- 0` (R133). -/
def execStoreUnder (p : Parameters) (a : Nat) (s : State) : Result :=
  .next (withStored p s a s.acc (fun t => (t.setAcc 0).advance))

/-- STORE on this hardware. -/
def execStore (a : Nat) (s : State) : Result := execStoreUnder hardware a s

end Sys2Proof.Machine
end

