-- ==== Sys2Proof/Machine/Dispatch.lean ====
section
/-! DEFINITION. The dispatch of 40_cycle.md R106: an exhaustive match, one handler per operation. -/

namespace Sys2Proof.Machine

/-- `Execute(op, opd)` (40_cycle.md R101, R106), on the state that fetch and decode left. -/
def exec (i : Instr) (s : State) : Host.Outcome State Fault Refusal :=
  match i with
  | .read a => Sys2Proof.Machine.execRead a s
  | .write a => Sys2Proof.Machine.execWrite a s
  | .load a => Sys2Proof.Machine.execLoad a s
  | .store a => Sys2Proof.Machine.execStore a s
  | .add a => Sys2Proof.Machine.execAdd a s
  | .subtract a => Sys2Proof.Machine.execSubtract a s
  | .divide a => Sys2Proof.Machine.execDivide a s
  | .multiply a => Sys2Proof.Machine.execMultiply a s
  | .branch t => Sys2Proof.Machine.execBranch t s
  | .branchNeg t => Sys2Proof.Machine.execBranchNeg t s
  | .branchZero t => Sys2Proof.Machine.execBranchZero t s
  | .halt x => Sys2Proof.Machine.execHalt x s
  | .pause x => Sys2Proof.Machine.execPause x s

end Sys2Proof.Machine
end

