-- ==== Sys2Proof/Machine/Cycle.lean ====
section
/-! DEFINITION. The fetch-decode-execute cycle (40_cycle.md R100 to R105), under any parameters. The
handlers come in as `run`: `exec` on this hardware, `execUnder` under other parameters. -/

namespace Sys2Proof.Machine

/-- `Execute(op, opd)` (40_cycle.md R101, R106) under any parameters: one handler per operation. -/
def execUnder (p : Parameters) (i : Instr) (s : State) : Result :=
  match i with
  | .read a => execReadUnder p a s
  | .write a => execWriteUnder p a s
  | .load a => execLoadUnder p a s
  | .store a => execStoreUnder p a s
  | .add a => execAddUnder p a s
  | .subtract a => execSubtractUnder p a s
  | .divide a => execDivideUnder p a s
  | .multiply a => execMultiplyUnder p a s
  | .branch t => execBranch t s
  | .branchNeg t => execBranchNeg t s
  | .branchZero t => execBranchZero t s
  | .halt x => execHaltUnder p x s
  | .pause x => execPauseUnder p x s

/-- The loop test at the start of every cycle (40_cycle.md R102): it fails when HALT has been decoded or
the pc is past the end of memory. Log 25. -/
abbrev State.LoopEnds (p : Parameters) (s : State) : Prop :=
  s.opc = p.opcodes.haltCode ∨ p.memSize ≤ s.pc

/-- Decode and dispatch on the state that the fetch left (40_cycle.md R101, R105): an illegal word
faults and no handler runs. -/
def dispatchFetched (p : Parameters) (run : Instr → State → Result) (s : State) : Result :=
  match p.opcodes.decode s.ir with
  | .illegalOpcode => .next (s.runtimeFault p .illegalOpcode)
  | .instr i => run i s

/-- One cycle (40_cycle.md R101). -/
def cycle (p : Parameters) (run : Instr → State → Result) (s : State) : Result :=
  if s.LoopEnds p then .next (s.fallOff p) else dispatchFetched p run s.fetch

end Sys2Proof.Machine
end

