-- ==== Sys2Proof/Machine/Entry.lean ====
section
/-! DEFINITION. Interactive entry (70_reset_and_hazards.md R256 to R258). -/

namespace Sys2Proof.Machine

/-- The entry of one console integer: the sentinel, a load fault, or a word stored at the next free
location `ic` (70_reset_and_hazards.md R256, R257, R258). -/
def enterValue (p : Parameters) (v : Int) (s : State) : State :=
  if v = Config.entrySentinel then s.setRunState .executing
  else if IsWord v then
    (s.putUnder p s.ic v).elim (s.loadFault p (.outOfRange s.ic)) (fun t => { t with ic := t.ic + 1 })
  else s.loadFault p .inputRange

/-- The entry prompt, printed once per value (70_reset_and_hazards.md R256). -/
def State.promptEntry (s : State) : State :=
  if s.prompted then s else s.emit (.entryPrompt s.ic)

/-- `EntryStep` (70_reset_and_hazards.md R256): the prompt, then the console's integer; the core holds
where there is none yet. Logs 4, 5. -/
def entryStep (p : Parameters) (s : State) : Result :=
  match s.answers with
  | [] => .next s.promptEntry.hold
  | v :: rest => .next (enterValue p v (s.promptEntry.takeAnswer rest))

end Sys2Proof.Machine
end

