-- ==== Sys2Proof/Machine/HostPort.lean ====
section
/-! DEFINITION. What the host can do to the core (10_state.md R38): start a run
(70_reset_and_hazards.md R254, R255, R259), and supply answers, acknowledgments and requests. -/

namespace Sys2Proof.Machine

/-- The first word of an image that is no Word, which makes `Run(image)` refuse
(70_reset_and_hazards.md R260). That the first is named is log 16. -/
def firstNonWord (ws : List Int) : Option Int := ws.find? (fun w => !decide (IsWord w))

/-- What both runs do first (70_reset_and_hazards.md R250): clear memory and zero the registers. No
prompt is open in the new run; `out` keeps its history (10_state.md R37). -/
def State.fresh (s : State) : State := { s.clear.resetRegisters with prompted := false }

/-- `Run()` (70_reset_and_hazards.md R255). -/
def State.runEntry (s : State) : State := s.fresh.setRunState .loading

/-- `Run(image)` once its words are known to be Words (70_reset_and_hazards.md R259). -/
def State.runImage (p : Parameters) (s : State) (img : Image) : State :=
  (s.fresh.loadImage p img.words).setRunState .executing

/-- The run a request asks for, on a machine that may accept it (70_reset_and_hazards.md R255, R259,
R260). -/
def beginRun (p : Parameters) (q : RunRequest) (s : State) : Result :=
  match q with
  | .entry => .next s.runEntry
  | .image img =>
    match firstNonWord img.words with
    | some v => .refused (.imageWord v)
    | none => .next (s.runImage p img)

/-- `Run()` and `Run(image)` as the host calls them (70_reset_and_hazards.md R254): accepted from Idle
or Halted, refused from Loading, Executing or Paused. -/
def startRunUnder (p : Parameters) (q : RunRequest) (s : State) : Result :=
  match s.rs with
  | .idle => beginRun p q s
  | .halted _ => beginRun p q s
  | .loading => .refused (.runRefused .loading)
  | .executing => .refused (.runRefused .executing)
  | .paused => .refused (.runRefused .paused)

/-- `Run()` and `Run(image)` on this hardware. -/
def startRun (q : RunRequest) (s : State) : Result := startRunUnder hardware q s

/-- A free machine (Idle or Halted): the next run the host requests begins, and without a request
nothing changes (10_state.md R27: no step leaves Halted but a new Run). Logs 6, 23. -/
def restStep (p : Parameters) (s : State) : Result :=
  match s.requests with
  | [] => .next s
  | q :: rest => startRunUnder p q { s with requests := rest }

/-- The console supplies one more integer (10_state.md R32). -/
def State.supplyAnswer (s : State) (v : Int) : State := { s with answers := s.answers ++ [v] }

/-- The operator supplies one more acknowledgment (45_halt_pause.md R176). -/
def State.supplyAck (s : State) (wantDump : Bool) : State := { s with acks := s.acks ++ [wantDump] }

/-- The host will request one more run (10_state.md R38). -/
def State.supplyRequest (s : State) (q : RunRequest) : State :=
  { s with requests := s.requests ++ [q] }

end Sys2Proof.Machine
end

