-- ==== Sys2Proof/Machine/Step.lean ====
section
/-! DEFINITION. One step of the machine, by its run state (10_state.md R27, 40_cycle.md R100), and the
placing of an instruction where the next step fetches it. -/

namespace Sys2Proof.Machine

/-- One step under the parameters, with the handlers `run`. A core that holds at a prompt with no answer,
or rests with no request, answers its own state: nothing changes (60_exceptions.md R235). Logs 4, 6. -/
def stepWith (p : Parameters) (run : Instr → State → Result) (s : State) : Result :=
  match s.rs with
  | .idle => restStep p s
  | .halted _ => restStep p s
  | .loading => entryStep p s
  | .paused => pausedStep p s
  | .executing => if s.prompted then resumeRead p s else cycle p run s

/-- One step under any parameters (00_scope.md R8). -/
def stepUnder (p : Parameters) (s : State) : Result := stepWith p (execUnder p) s

/-- One step of this hardware. -/
def step (s : State) : Host.Outcome State Fault Refusal := stepWith hardware exec s

/-- `s` with the decimal word `w` at the pc and the core ready to fetch it: Executing, no prompt open,
a pc inside memory and no HALT in `opc` (40_cycle.md R102). `nbits` plays no part: words have no bits
(30_encoding.md R95). It stands for the load of a program from outside. Logs 7, 8. -/
def State.withFetchWord (s : State) (nbits w : Nat) : State :=
  let pc := if s.pc < Config.memSize then s.pc else 0
  { s with
    pc := pc
    opc := if s.opc = haltCode then 0 else s.opc
    rs := .executing
    mem := s.mem.write pc (w : Int)
    prompted := false }

end Sys2Proof.Machine
end

