-- ==== Sys2Proof/Machine/Image.lean ====
section
/-! DEFINITION. The instruction image container (46_image_patch.md R190 to R195). -/

namespace Sys2Proof.Machine

/-- The image with no word and no description (46_image_patch.md R190). -/
def Image.empty : Image := { words := [], description := none }

/-- Every element is a Word (46_image_patch.md R194). -/
abbrev Image.WordsOnly (img : Image) : Prop := ∀ w ∈ img.words, IsWord w

/-- `Append` (46_image_patch.md R191): the new image and the location the word now has; a value that
is no Word is refused (R194). -/
def append (img : Image) (v : Int) : Host.Outcome (Image × Nat) Fault Refusal :=
  if IsWord v then .next ({ img with words := img.words ++ [v] }, img.words.length)
  else .refused (.imageWord v)

/-- `OverwriteAt` (46_image_patch.md R192): a location outside the image, then a value that is no Word
(R194), is refused; the image never grows. The order of the two checks is DESIGN CHOICE, log 18. -/
def overwriteAt (img : Image) (loc v : Int) : Host.Outcome Image Fault Refusal :=
  if loc < 0 ∨ (img.words.length : Int) ≤ loc then .refused (.imageLocation loc)
  else if IsWord v then .next { img with words := img.words.set loc.toNat v }
  else .refused (.imageWord v)

/-- The description set by a `rem` statement (46_image_patch.md R193): the first one only. -/
def describe (img : Image) (text : Text) : Image :=
  match img.description with
  | none => { img with description := some text }
  | some _ => img

end Sys2Proof.Machine
end

