-- ==== Sys2Proof/Machine/ImageFile.lean ====
section
/-! DEFINITION. The compiled image file as lines of text (46_image_patch.md R210, R211): the mapping
between a file and an Image; persistence is outside the block (00_scope.md R6). -/

namespace Sys2Proof.Machine

/-! ### Writing -/

/-- The character of a decimal digit 0..9. -/
def digitChar (d : Nat) : Char := Char.ofNat (48 + d)

/-- The digits of `n`, most significant first, before those already in `done`. -/
def decimalFrom : Nat → Nat → Text → Text
  | 0, _, done => done
  | fuel + 1, n, done =>
    if n < 10 then digitChar n :: done
    else decimalFrom fuel (n / 10) (digitChar (n % 10) :: done)

/-- A location, written in decimal. -/
def writeLocation (n : Nat) : Text := decimalFrom (n + 1) n []

/-- A word, written as a sign and exactly four digits (46_image_patch.md R211). -/
def writeWord (w : Int) : Text :=
  (if w < 0 then '-' else '+') ::
    [digitChar (w.natAbs / 1000 % 10), digitChar (w.natAbs / 100 % 10),
     digitChar (w.natAbs / 10 % 10), digitChar (w.natAbs % 10)]

/-- One line per location, rising from `i`. -/
def writeCells : Nat → List Int → List Text
  | _, [] => []
  | i, w :: ws => (writeLocation i ++ ' ' :: writeWord w) :: writeCells (i + 1) ws

/-- The file of an image (46_image_patch.md R211): the description line first, if any, then the cells. -/
def writeImageFile (img : Image) : List Text :=
  match img.description with
  | none => writeCells 0 img.words
  | some text => ('-' :: '1' :: ' ' :: text) :: writeCells 0 img.words

/-! ### Reading -/

/-- The value of a decimal digit. -/
def digitValue (c : Char) : Option Nat :=
  if 48 ≤ c.toNat ∧ c.toNat ≤ 57 then some (c.toNat - 48) else none

/-- A run of digits read on from the value `n`; none at a character that is no digit. -/
def readDigits : Nat → Text → Option Nat
  | n, [] => some n
  | n, c :: cs =>
    match digitValue c with
    | none => none
    | some d => readDigits (10 * n + d) cs

/-- A location: one or more digits. Log 19. -/
def readLocation (t : Text) : Option Nat :=
  match t with
  | [] => none
  | c :: cs => readDigits 0 (c :: cs)

/-- One to four digits (46_image_patch.md R211). -/
def readMagnitude (t : Text) : Option Nat :=
  if t.length ≤ 4 then readLocation t else none

/-- A word: an optional sign and one to four digits (46_image_patch.md R211). -/
def readWord (t : Text) : Option Int :=
  match t with
  | '+' :: ds => (readMagnitude ds).map (fun n => (n : Int))
  | '-' :: ds => (readMagnitude ds).map (fun n => -(n : Int))
  | ds => (readMagnitude ds).map (fun n => (n : Int))

/-- The text before the first space and the text after it; none where there is no space. -/
def splitAtSpace : Text → Option (Text × Text)
  | [] => none
  | c :: cs =>
    if c = ' ' then some ([], cs)
    else (splitAtSpace cs).map (fun p => (c :: p.1, p.2))

/-- What a line of an image file says (46_image_patch.md R210). -/
inductive FileLine where
  | description (text : Text)
  | cell (loc : Nat) (w : Int)
deriving DecidableEq, Repr

/-- One line read; none where it is malformed (46_image_patch.md R211). -/
def readLine (t : Text) : Option FileLine :=
  match splitAtSpace t with
  | none => none
  | some (loc, rest) =>
    if loc = ['-', '1'] then some (.description rest)
    else
      match readLocation loc, readWord rest with
      | some l, some w => some (.cell l w)
      | _, _ => none

/-- The words of the cells read: as long as the largest location asks, 0 where no line names one. -/
def wordsOfCells (cells : List (Nat × Int)) : List Int :=
  (List.range (cells.foldr (fun c n => max (c.1 + 1) n) 0)).map (Memory.read cells)

/-- The lines read in order; a malformed line or a location named twice (the description's -1 too) is
refused (46_image_patch.md R211). -/
def readLines : List Text → Option Text → List (Nat × Int) → Host.Outcome Image Fault Refusal
  | [], d, cells => .next { words := wordsOfCells cells, description := d }
  | t :: ts, d, cells =>
    match readLine t with
    | none => .refused .imageFile
    | some (.description text) =>
      if d.isSome then .refused .imageFile else readLines ts (some text) cells
    | some (.cell l w) =>
      if cells.any (fun c => c.1 == l) then .refused .imageFile
      else readLines ts d ((l, w) :: cells)

/-- The image of a file (46_image_patch.md R211). -/
def readImageFile (lines : List Text) : Host.Outcome Image Fault Refusal := readLines lines none []

end Sys2Proof.Machine
end

