-- ==== Sys2Proof/Machine/Patch.lean ====
section
/-! DEFINITION. The patch-resolution engine (46_image_patch.md R200 to R207). It keeps no state (R206). -/

namespace Sys2Proof.Machine

/-- A patch entry (46_image_patch.md R200): the location of an emitted branch word whose operand is a
placeholder, and the source line it goes to. -/
structure PatchEntry where
  location   : Int
  targetLine : Int
deriving DecidableEq, Repr

/-- The opcodes a patch may stand on (46_image_patch.md R202): the branches' decade, the same three
numbers under every opcode assignment (30_encoding.md R80). -/
def isBranchCode (opcode : Int) : Bool :=
  match opOf opcode with
  | some .branch => true
  | some .branchNeg => true
  | some .branchZero => true
  | _ => false

/-- One entry (46_image_patch.md R202), with the checks in the order of the rule: the target line, the
location, the branch word, the target's range; then the opcode is kept and the operand replaced (R203). -/
def resolveOne (img : Image) (p : PatchEntry) (lineLoc : Int → Option Nat) :
    Host.Outcome Image Fault Refusal :=
  match lineLoc p.targetLine with
  | none => .fault (.undefinedReference p.targetLine)
  | some t =>
    if p.location < 0 ∨ (img.words.length : Int) ≤ p.location then
      .refused (.patchLocation p.location)
    else
      let op := (splitWord (img.words.getD p.location.toNat 0)).1
      if isBranchCode op = false then .refused (.patchNotBranch p.location)
      else if Config.operandMax < t then .refused (.patchTargetRange t)
      else .next { img with words := img.words.set p.location.toNat (joinWord op t) }

/-- `Resolve` (46_image_patch.md R202): the entries in list order; the first that fails ends it and no
image is handed on (R204, R205). `lineLoc` is the symbol table's lookup (R200). Log 26. -/
def resolve (img : Image) (patches : List PatchEntry) (lineLoc : Int → Option Nat) :
    Host.Outcome Image Fault Refusal :=
  match patches with
  | [] => .next img
  | p :: ps =>
    match resolveOne img p lineLoc with
    | .next img' => resolve img' ps lineLoc
    | .fault f => .fault f
    | .refused r => .refused r

end Sys2Proof.Machine
end

