-- ==== Sys2Proof/Machine/Written.lean ====
section
/-! DEFINITION. The spec's written form of words (30_encoding.md R86): `MNEMONIC nn` for an instruction, a
signed decimal number for a data word. It is the spec's own (decision D25), and no part of the core. -/

namespace Sys2Proof.Machine

/-- The name of an operation (30_encoding.md R80). -/
def opName : Op → Text
  | .read => ['R', 'E', 'A', 'D']
  | .write => ['W', 'R', 'I', 'T', 'E']
  | .load => ['L', 'O', 'A', 'D']
  | .store => ['S', 'T', 'O', 'R', 'E']
  | .add => ['A', 'D', 'D']
  | .subtract => ['S', 'U', 'B', 'T', 'R', 'A', 'C', 'T']
  | .divide => ['D', 'I', 'V', 'I', 'D', 'E']
  | .multiply => ['M', 'U', 'L', 'T', 'I', 'P', 'L', 'Y']
  | .branch => ['B', 'R', 'A', 'N', 'C', 'H']
  | .branchNeg => ['B', 'R', 'A', 'N', 'C', 'H', 'N', 'E', 'G']
  | .branchZero => ['B', 'R', 'A', 'N', 'C', 'H', 'Z', 'E', 'R', 'O']
  | .halt => ['H', 'A', 'L', 'T']
  | .pause => ['P', 'A', 'U', 'S', 'E']

/-- HALT and PAUSE may stand without their operand, which is then 00. -/
def mayOmitOperand : Op → Bool
  | .halt => true
  | .pause => true
  | _ => false

/-- An instruction, written with its two-digit operand, but HALT and PAUSE without a 00. -/
def writeInstr (i : Instr) : Text :=
  if mayOmitOperand i.op = true ∧ i.operand = 0 then opName i.op
  else opName i.op ++ [' ', digitChar (i.operand / 10 % 10), digitChar (i.operand % 10)]

/-- The operation of a name. -/
def opNamed (name : Text) : Option Op := allOps.find? (fun op => opName op == name)

/-- The word that a written line denotes under an opcode assignment: an instruction's, or a data
word's. Log 30. -/
def readWrittenUnder (m : OpcodeAssignment) (t : Text) : Option Int :=
  match splitAtSpace t with
  | some (name, nn) =>
    match opNamed name with
    | some op =>
      if nn.length = 2 then (readLocation nn).map (fun n => joinWord (m.code op) n) else none
    | none => none
  | none =>
    match opNamed t with
    | some op => if mayOmitOperand op = true then some (joinWord (m.code op) 0) else none
    | none => readWord t

/-- The word that a written line denotes on this hardware. -/
def readWritten (t : Text) : Option Int := readWrittenUnder opcodeAssignment t

end Sys2Proof.Machine
end

