-- ==== Sys2Proof/Safety.lean ====
section
/-! DEFINITION. The terms claims are stated in: what a run shows (40_cycle.md R111), which run-state
changes exist (10_state.md R27), when the core waits, what leaves a state alone, and the invariant of
the state. -/

namespace Sys2Proof.Machine

/-! ### What a run shows -/

/-- The values WRITE printed, in order (10_state.md R33): what a claim about a run should read first
(40_cycle.md R111). -/
def writtenWords (out : List OutEvent) : List Int :=
  out.filterMap (fun e => match e with | .written v => some v | _ => none)

/-- The observation of a finished run (40_cycle.md R111). -/
structure Observation where
  reason : HaltReason
  cells  : List Int
  acc    : Int
  pc     : Nat
  ir     : Int
  opc    : Int
  opd    : Int
  ic     : Nat
  out    : List OutEvent
deriving DecidableEq, Repr

/-- A run is observed when it has ended; a run that holds at a prompt is not finished (40_cycle.md R110,
R111). -/
def observe (p : Parameters) (s : State) : Option Observation :=
  match s.rs with
  | .halted r => some
      { reason := r
        cells := (List.range p.memSize).map s.mem.read
        acc := s.acc, pc := s.pc, ir := s.ir, opc := s.opc, opd := s.opd, ic := s.ic
        out := s.out }
  | _ => none

/-- A safe run: no runtime fault and no load fault has ended it (60_exceptions.md R222). -/
def State.FaultFree (s : State) : Prop := ∀ c, s.rs ≠ .halted (.fault c)

/-! ### Run states -/

/-- The transitions of 10_state.md R27, and the new run from Halted of 70_reset_and_hazards.md R254. -/
inductive RunTransition : RunState → RunState → Prop where
  | startEntry : RunTransition .idle .loading
  | startImage : RunTransition .idle .executing
  | restartEntry (r : HaltReason) : RunTransition (.halted r) .loading
  | restartImage (r : HaltReason) : RunTransition (.halted r) .executing
  | endOfEntry : RunTransition .loading .executing
  | loadFault (c : FaultCause) : RunTransition .loading (.halted (.fault c))
  | pause : RunTransition .executing .paused
  | acknowledged : RunTransition .paused .executing
  | ended (r : HaltReason) : RunTransition .executing (.halted r)

/-- The machine may accept a Run (70_reset_and_hazards.md R254). -/
def RunState.Free (r : RunState) : Prop := r = .idle ∨ ∃ h, r = .halted h

/-- A run is active, so that a Run is refused (70_reset_and_hazards.md R254). -/
def RunState.Busy (r : RunState) : Prop := r = .loading ∨ r = .executing ∨ r = .paused

/-- The core waits at a printed prompt and the console has no answer (60_exceptions.md R235). -/
def State.Waiting (s : State) : Prop :=
  (s.rs = .loading ∧ s.prompted = true ∧ s.answers = []) ∨
  (s.rs = .executing ∧ s.prompted = true ∧ s.answers = []) ∨
  (s.rs = .paused ∧ s.acks = [])

/-! ### What is left alone -/

/-- Every location reads as before. -/
def SameCellsUnder (p : Parameters) (s t : State) : Prop :=
  ∀ l : Int, t.getUnder p l = s.getUnder p l

/-- Every location of this hardware reads as before. -/
def SameCells (s t : State) : Prop := SameCellsUnder hardware s t

/-- Every location but `a` reads as before. -/
def SameCellsButUnder (p : Parameters) (a : Int) (s t : State) : Prop :=
  ∀ l : Int, l ≠ a → t.getUnder p l = s.getUnder p l

/-- Every location of this hardware but `a` reads as before. -/
def SameCellsBut (a : Int) (s t : State) : Prop := SameCellsButUnder hardware a s t

/-- The registers that only fetch and decode write are as before (10_state.md R23 to R26). -/
def SameFetched (s t : State) : Prop := t.ir = s.ir ∧ t.opc = s.opc ∧ t.opd = s.opd ∧ t.ic = s.ic

/-- What the console and the host will supply is as before. -/
def SameStreams (s t : State) : Prop :=
  t.answers = s.answers ∧ t.acks = s.acks ∧ t.requests = s.requests

/-- Every register is 0 (70_reset_and_hazards.md R252). -/
def State.RegistersZero (s : State) : Prop :=
  s.acc = 0 ∧ s.pc = 0 ∧ s.ir = 0 ∧ s.opc = 0 ∧ s.opd = 0 ∧ s.ic = 0

/-- Every cell of memory holds 0 (20_memory.md R53). -/
def State.CellsZero (s : State) : Prop := ∀ l : Int, InMemory l → s.get l = some 0

/-! ### The invariant -/

/-- What holds of every state a run can reach (10_state.md R21 to R28, 40_cycle.md R102). -/
structure State.InvUnder (p : Parameters) (s : State) : Prop where
  /-- the accumulator holds a Word (R21) -/
  accWord : IsWord s.acc
  /-- the instruction register holds a Word (R23) -/
  irWord : IsWord s.ir
  /-- `opc` and `opd` hold the decoded `ir` (R24, R25) -/
  decoded : (s.opc, s.opd) = splitWord s.ir
  /-- every cell holds a Word (R28) -/
  cellWord : ∀ c ∈ s.mem, IsWord c.2
  /-- cells exist only at locations 0..N-1 (R28) -/
  cellLoc : ∀ c ∈ s.mem, c.1 < p.memSize
  /-- memory is in its canonical form -/
  canonical : s.mem.wf
  /-- the pc is in 0..max(N, 100) (R22) -/
  pcBound : s.pc ≤ max p.memSize (Config.operandMax + 1)
  /-- before the first Run everything is 0 (R251) -/
  idleZero : s.rs = .idle → s.RegistersZero ∧ s.mem = []
  /-- during entry only `ic` has moved, and it counts cells (R256, R257) -/
  loadingZero : s.rs = .loading → s.acc = 0 ∧ s.pc = 0 ∧ s.ir = 0 ∧ s.ic ≤ p.memSize
  /-- no cycle starts with HALT decoded (R102) -/
  notHalt : s.rs = .executing → s.opc ≠ p.opcodes.haltCode
  /-- Paused stands at a PAUSE (R175) -/
  pausedAt : s.rs = .paused → s.opc = p.opcodes.code .pause ∧ s.pc < p.memSize
  /-- a prompt is open only in entry or in a READ (R38) -/
  promptedAt : s.prompted = true →
    s.rs = .loading ∨ (s.rs = .executing ∧ s.opc = p.opcodes.code .read ∧ s.pc < p.memSize)

/-- The invariant of this hardware. -/
abbrev State.Inv (s : State) : Prop := s.InvUnder hardware

end Sys2Proof.Machine
end

