-- ==== Sys2Proof/Certificates/Slice0/Obligations.lean ====
section
/-! DEFINITION. The statements for the provers. A docstring names the rule a statement formalises; where a
clause rests on a decision of the spec's own (92_eei_decisions.md D<n>), on an inference the spec marks as
derived, or on a choice of the model's (log <n>), the docstring says so. A name with `Under` takes the
parameters of 00_scope.md R8; without it, it is this hardware's (N = 100). -/

open Sys2Proof Sys2Proof.Machine

namespace Sys2Proof.Claims

/-- The state a runtime fault leaves (60_exceptions.md R222), written out: the run is over, and the
report at the pc and a dump follow what was printed. -/
def faultedUnder (p : Parameters) (s : State) (c : FaultCause) : State :=
  { s with
    rs := .halted (.fault c)
    out := s.out ++ [.faultReport c s.pc s.ir, .dump (dumpOfUnder p s)] }

/-- The same on this hardware. -/
def faulted (s : State) (c : FaultCause) : State := faultedUnder hardware s c

/-- The state fetch and decode leave (40_cycle.md R103, R104), written out for the word `w`. -/
def fetched (s : State) (w : Int) : State :=
  { s with ir := w, ic := s.ic + 1, opc := (splitWord w).1, opd := (splitWord w).2 }

/-- What has been printed once the entry prompt stands (70_reset_and_hazards.md R256): it is printed
once per value. -/
def printedAtEntry (s : State) : List OutEvent :=
  if s.prompted then s.out else s.out ++ [.entryPrompt s.ic]

/-- The state of a READ once its prompt is printed and the console's integer is consumed
(41_io.md R120). -/
def readTaken (s : State) (rest : List Int) : State :=
  { s with out := s.out ++ [.readPrompt], answers := rest, prompted := false }

/-- The instruction raises the fault: the run ends with the cause, and acc and memory are as before. -/
def Raises (i : Instr) (s : State) (c : FaultCause) : Prop :=
  ∃ t, exec i s = .next t ∧ t.rs = .halted (.fault c) ∧ t.acc = s.acc ∧ SameCells s t

/-- A cycle is about to fetch the word `w` (40_cycle.md R101, R102): the core executes, no prompt is
open, the loop test holds, and `w` is at the pc. -/
def AboutToFetchUnder (p : Parameters) (s : State) (w : Int) : Prop :=
  s.rs = .executing ∧ s.prompted = false ∧ s.opc ≠ p.opcodes.haltCode ∧ s.pc < p.memSize ∧
    s.mem.read s.pc = w

/-- The same on this hardware. -/
def AboutToFetch (s : State) (w : Int) : Prop := AboutToFetchUnder hardware s w

/-- The legal words of 30_encoding.md R75. -/
def LegalWord (w : Int) : Prop :=
  (1000 ≤ w ∧ w ≤ 1199) ∨ (2000 ≤ w ∧ w ≤ 2199) ∨ (3000 ≤ w ∧ w ≤ 3399) ∨
    (4000 ≤ w ∧ w ≤ 4299) ∨ (5000 ≤ w ∧ w ≤ 5199)

end Sys2Proof.Claims

open Sys2Proof.Claims

/-! ### The codec and the encoding -/

/-- Every well-formed instruction comes back from its word, with every operand the field admits
(30_encoding.md R71, R78, R81): on this hardware, whose numbers are the spec's decision D1, and under every
opcode assignment that R80 allows. -/
def Obligations.EncodedInstructionDecodesToItself : Prop :=
  (∀ i : Instr, i.WellFormed →
    splitWord (encode i) = (codeOf i.op, (i.operand : Int)) ∧ decode (encode i) = .instr i) ∧
  (∀ (m : OpcodeAssignment) (i : Instr), i.WellFormed →
    splitWord (m.encode i) = (m.code i.op, (i.operand : Int)) ∧ m.decode (m.encode i) = .instr i)

/-- Every integer that decodes to an instruction is that instruction's own word, so no two words share
an instruction (30_encoding.md R81, R83): on this hardware (the spec's decision D1) and under every opcode
assignment that R80 allows. -/
def Obligations.DecodedWordIsItsInstructionsEncoding : Prop :=
  (∀ (w : Int) (i : Instr), decode w = .instr i → i.WellFormed ∧ encode i = w) ∧
  (∀ (m : OpcodeAssignment) (w : Int) (i : Instr), m.decode w = .instr i →
    i.WellFormed ∧ m.encode i = w)

/-- The codec laws (30_encoding.md R78): (a) is the source's, (b) and (c) the spec marks as derived. -/
def Obligations.CodecLawsHold : Prop :=
  (∀ c ∈ opcodeSet, ∀ n : Int, 0 ≤ n → n ≤ Config.operandMax →
    splitWord (joinWord c n) = (c, n) ∧
    1000 ≤ joinWord c n ∧ joinWord c n ≤ 5199 ∧ isValidWord (joinWord c n) = true) ∧
  (∀ w : Int, IsWord w → joinWord (splitWord w).1 (splitWord w).2 = w)

/-- Decode truncates toward zero: the two fields are the decimal quotient and remainder of the
magnitude with the word's sign (30_encoding.md R74; the sign of the remainder the spec marks as derived). -/
def Obligations.SplitWordHasTheSignOfTheWord : Prop :=
  ∀ w : Int, IsWord w →
    (splitWord w).1 = w.sign * ((w.natAbs / 100 : Nat) : Int) ∧
    (splitWord w).2 = w.sign * ((w.natAbs % 100 : Nat) : Int) ∧
    (-99 ≤ (splitWord w).1 ∧ (splitWord w).1 ≤ 99) ∧
    (-99 ≤ (splitWord w).2 ∧ (splitWord w).2 ≤ 99)

/-- The opcode set is met in five ranges of words only, with an operand in 0..99 there; every word
below 1000 has an opcode of at most 9; and exactly the other words are illegal (30_encoding.md R75, R82,
which the spec marks as derived). -/
def Obligations.LegalWordsAreTheFiveRanges : Prop :=
  ∀ w : Int, IsWord w →
    ((splitWord w).1 ∈ opcodeSet ↔ LegalWord w) ∧
    ((splitWord w).1 ∈ opcodeSet →
      (splitWord w).2 = w - 100 * (splitWord w).1 ∧ 0 ≤ (splitWord w).2 ∧ (splitWord w).2 ≤ 99) ∧
    (w < 1000 → (splitWord w).1 ≤ 9 ∧ (splitWord w).1 ∉ opcodeSet) ∧
    (decode w = .illegalOpcode ↔ ¬LegalWord w)

/-- One word of every instruction, written out digit by digit from 30_encoding.md R71 and R80, decodes to
it. The numbers are the spec's decision D1. -/
def Obligations.TableWordsDecodeToTheirInstructions : Prop :=
  decode 1007 = .instr (.read 7) ∧ decode 1199 = .instr (.write 99) ∧
  decode 2000 = .instr (.load 0) ∧ decode 2109 = .instr (.store 9) ∧
  decode 3008 = .instr (.add 8) ∧ decode 3105 = .instr (.subtract 5) ∧
  decode 3206 = .instr (.divide 6) ∧ decode 3350 = .instr (.multiply 50) ∧
  decode 4002 = .instr (.branch 2) ∧ decode 4110 = .instr (.branchNeg 10) ∧
  decode 4220 = .instr (.branchZero 20) ∧ decode 5037 = .instr (.halt 37) ∧
  decode 5199 = .instr (.pause 99)

/-- IsValidWord is true of the word 0 and of the executable words only, and the word 0 is not
executable (30_encoding.md R76; that executing 0 is illegal is the spec's decision D5). -/
def Obligations.ValidWordsAreZeroAndTheExecutableOnes : Prop :=
  (∀ w : Int, isValidWord w = true ↔ w = 0 ∨ ∃ i, decode w = .instr i) ∧ decode 0 = .illegalOpcode

/-! ### Memory and the dump -/

/-- Get and Put, for every size of memory: both fail outside [0, N) and there Put gives no state; inside,
the location reads the word put and every other location, and all the rest of the state, is as before
(20_memory.md R51). -/
def Obligations.PutIsSeenByGetAndByNothingElse : Prop :=
  ∀ (p : Parameters) (s : State) (a v : Int),
    (InMemoryUnder p a → ∃ t, s.putUnder p a v = some t ∧ t.getUnder p a = some v ∧
      SameCellsButUnder p a s t ∧ t = { s with mem := t.mem }) ∧
    (¬InMemoryUnder p a → s.putUnder p a v = none ∧ s.getUnder p a = none)

/-- The canonical form is canonical: two memories in it whose cells read alike are the same data. The
form is the model's (log 2). -/
def Obligations.MemoriesThatReadAlikeAreEqual : Prop :=
  ∀ m n : Memory, m.wf → n.wf → (∀ a, m.read a = n.read a) → m = n

/-- A dump holds the five registers and all N cells in order, each with its IsValidWord flag, for every
size of memory (45_halt_pause.md R173). -/
def Obligations.DumpHoldsTheRegistersAndEveryCell : Prop :=
  ∀ (p : Parameters) (s : State),
    (dumpOfUnder p s).acc = s.acc ∧ (dumpOfUnder p s).ic = s.ic ∧ (dumpOfUnder p s).ir = s.ir ∧
    (dumpOfUnder p s).opc = s.opc ∧ (dumpOfUnder p s).opd = s.opd ∧
    (dumpOfUnder p s).mem.length = p.memSize ∧
    ∀ a, a < p.memSize →
      (dumpOfUnder p s).mem[a]? = some (s.mem.read a, isValidWord (s.mem.read a))

/-! ### Reset, and starting a run -/

/-- The constructed machine is Idle with every register and every cell 0 (70_reset_and_hazards.md R251;
that the registers are 0 before a Run is the spec's decision D20). -/
def Obligations.ResetMachineIsIdleAndZero : Prop :=
  State.reset.rs = .idle ∧ State.reset.RegistersZero ∧ State.reset.CellsZero

/-- `Run()` on a free machine clears memory, zeroes the registers and enters Loading
(70_reset_and_hazards.md R255). -/
def Obligations.RunClearsTheMachineAndEntersLoading : Prop :=
  ∀ s : State, s.rs.Free →
    ∃ t, startRun .entry s = .next t ∧ t.rs = .loading ∧ t.RegistersZero ∧ t.CellsZero

/-- A Run that is accepted, of either kind, keeps the output history (the spec's decision D16), keeps
what the host will supply, and opens no prompt (logs 3, 4). -/
def Obligations.AcceptedRunKeepsTheHistory : Prop :=
  ∀ (s t : State) (q : RunRequest), startRun q s = .next t →
    s.rs.Free ∧ t.out = s.out ∧ SameStreams s t ∧ t.prompted = false

/-- `Run(image)` on a free machine, for every size N of memory: every cell holds the image's word for it, or 0 beyond the image;
words at or beyond N are dropped; the registers are 0 (the spec's decision D13) and the core executes
(70_reset_and_hazards.md R259, R260). The output history and what the host will supply are kept
(decision D16, log 3). -/
def Obligations.RunImageLoadsTheImageAndExecutes : Prop :=
  ∀ (p : Parameters) (s : State) (img : Image), s.rs.Free → img.WordsOnly →
    ∃ t, startRunUnder p (.image img) s = .next t ∧ t.rs = .executing ∧ t.RegistersZero ∧
      (∀ a : Nat, a < p.memSize → t.getUnder p a = some (img.words.getD a 0)) ∧
      t.prompted = false ∧ t.out = s.out ∧ SameStreams s t

/-- An image with a value that is no Word is refused, and the refusal names such a value
(70_reset_and_hazards.md R260; the spec's decision D14). -/
def Obligations.RunImageRefusesAValueThatIsNoWord : Prop :=
  ∀ (s : State) (img : Image), s.rs.Free → ¬img.WordsOnly →
    ∃ v ∈ img.words, ¬IsWord v ∧ startRun (.image img) s = .refused (.imageWord v)

/-- A Run asked for while a run is active is refused with the run state (70_reset_and_hazards.md R254; the
spec's decision D26). -/
def Obligations.RunIsRefusedWhileARunIsActive : Prop :=
  ∀ (s : State) (q : RunRequest), s.rs.Busy → startRun q s = .refused (.runRefused s.rs)

/-- Idle and Halted end only by a Run: with no request a step changes nothing, and with one it is that
Run (10_state.md R27, 70_reset_and_hazards.md R254). How a rest and a request are a step is the model's
choice (logs 3, 6). -/
def Obligations.FreeMachineMovesOnlyByARequest : Prop :=
  ∀ s : State, s.rs.Free →
    (s.requests = [] → step s = .next s) ∧
    (∀ q rest, s.requests = q :: rest → step s = startRun q { s with requests := rest })

/-! ### Interactive entry -/

/-- An entered word goes to the next free location `ic`, the prompt with that number has been printed,
and nothing else changes (70_reset_and_hazards.md R256). That `ic` is the location and the prompt's number
is the spec's decision D10; logs 3, 5 say how the answer is supplied. -/
def Obligations.EntryStoresTheWordAtTheNextFreeLocation : Prop :=
  ∀ (s : State) (v : Int) (rest : List Int),
    s.rs = .loading → s.answers = v :: rest → IsWord v → s.ic < Config.memSize →
    ∃ t, step s = .next t ∧ t.get s.ic = some v ∧ SameCellsBut s.ic s t ∧
      t = { s with
        ic := s.ic + 1, mem := t.mem, out := printedAtEntry s, answers := rest, prompted := false }

/-- The sentinel ends entry: the core executes and every register is as entry left it, `ic` too
(70_reset_and_hazards.md R257; that `ic` is kept is the spec's decision D6). -/
def Obligations.SentinelEndsEntryAndStartsExecution : Prop :=
  ∀ (s : State) (rest : List Int),
    s.rs = .loading → s.answers = Config.entrySentinel :: rest →
    step s = .next { s with
      rs := .executing, out := printedAtEntry s, answers := rest, prompted := false }

/-- The two load faults: a value that is neither the sentinel nor a Word, and a word entered when
memory is full; nothing is stored, and the report names the entry location (70_reset_and_hazards.md R258;
the spec's decisions D10, D22). It holds on this hardware and under all parameters. -/
def Obligations.BadEntryEndsTheRunWithALoadFault : Prop :=
  (∀ (s : State) (v : Int) (rest : List Int),
    s.rs = .loading → s.answers = v :: rest → v ≠ Config.entrySentinel →
    (¬IsWord v → step s = .next { s with
      rs := .halted (.fault .inputRange), answers := rest, prompted := false
      out := printedAtEntry s ++ [.faultReport .inputRange s.ic s.ir, .dump (dumpOf s)] }) ∧
    (IsWord v → Config.memSize ≤ s.ic → step s = .next { s with
      rs := .halted (.fault (.outOfRange s.ic)), answers := rest, prompted := false
      out := printedAtEntry s ++ [.faultReport (.outOfRange s.ic) s.ic s.ir, .dump (dumpOf s)] })) ∧
  (∀ (p : Parameters) (s : State) (v : Int) (rest : List Int),
    s.rs = .loading → s.answers = v :: rest → v ≠ Config.entrySentinel →
    (¬IsWord v → stepUnder p s = .next { s with
      rs := .halted (.fault .inputRange), answers := rest, prompted := false
      out := printedAtEntry s ++ [.faultReport .inputRange s.ic s.ir, .dump (dumpOfUnder p s)] }) ∧
    (IsWord v → p.memSize ≤ s.ic → stepUnder p s = .next { s with
      rs := .halted (.fault (.outOfRange s.ic)), answers := rest, prompted := false
      out := printedAtEntry s ++
        [.faultReport (.outOfRange s.ic) s.ic s.ir, .dump (dumpOfUnder p s)] }))

/-- A wait changes nothing and ends only by an answer (60_exceptions.md R235): a step of a core that waits
is the same state, and an entry step with no answer prints its prompt and waits. That a wait is a step
that changes nothing is the model's choice (log 4). -/
def Obligations.UnansweredPromptHoldsTheCore : Prop :=
  (∀ s : State, s.Waiting → step s = .next s) ∧
  (∀ s : State, s.rs = .loading → s.prompted = false → s.answers = [] →
    step s = .next { s with prompted := true, out := s.out ++ [.entryPrompt s.ic] })

/-! ### The cycle -/

/-- A step fetches the word at the pc, decodes it into the registers and runs the instruction it
decodes to (40_cycle.md R101, R103, R104); `ic` goes up by one (the spec's decision D6). The same holds under
all parameters: every N of at least 1 (00_scope.md R10) and every opcode assignment that 30_encoding.md R80
allows. This hardware is the machine at its parameters. -/
def Obligations.StepRunsTheDecodedInstruction : Prop :=
  (∀ (s : State) (w : Int) (i : Instr),
    AboutToFetch s w → decode w = .instr i → step s = exec i (fetched s w)) ∧
  (∀ (p : Parameters) (s : State) (w : Int) (i : Instr),
    AboutToFetchUnder p s w → p.opcodes.decode w = .instr i →
      stepUnder p s = execUnder p i (fetched s w)) ∧
  (∀ (i : Instr) (s : State), exec i s = execUnder hardware i s) ∧
  (∀ s : State, step s = stepUnder hardware s)

/-- A word that is no instruction ends the run at decode: pc, acc and memory are as before, the
registers show the word, and the report and the dump follow (40_cycle.md R105). The cause for 0 and for
negative words is the spec's decision D5, the register contents D7 and D8, the report D22. -/
def Obligations.IllegalWordFaultsAtDecode : Prop :=
  ∀ (s : State) (w : Int),
    AboutToFetch s w → decode w = .illegalOpcode →
    step s = .next (faulted (fetched s w) .illegalOpcode)

/-- A pc past the end of memory ends the run with no fault; a dump is printed exactly when the open
parameter says so, and nothing else changes (40_cycle.md R102, which the spec marks as derived; D11): on this
hardware and under all parameters. -/
def Obligations.PcPastTheEndFallsOff : Prop :=
  (∀ s : State, s.rs = .executing → s.prompted = false → Config.memSize ≤ s.pc →
    step s = .next { s with
      rs := .halted .fellOff
      out := s.out ++ (if Config.dumpOnFalloff then [.dump (dumpOf s)] else []) }) ∧
  (∀ (p : Parameters) (s : State), s.rs = .executing → s.prompted = false → p.memSize ≤ s.pc →
    stepUnder p s = .next { s with
      rs := .halted .fellOff
      out := s.out ++ (if p.dumpOnFalloff then [.dump (dumpOfUnder p s)] else []) })

/-- Faults are precise: whichever instruction ends the run with a fault, acc, memory, pc and the fetched
registers are as before it, and what it printed is at most READ's prompt, then the report at its pc and
the dump (60_exceptions.md R222, R224). The spec's decisions D7, D8, D22, D27. -/
def Obligations.FaultingInstructionLeavesAccMemoryAndPc : Prop :=
  ∀ (i : Instr) (s t : State) (c : FaultCause),
    exec i s = .next t → t.rs = .halted (.fault c) → s.rs ≠ t.rs →
    t.acc = s.acc ∧ SameCells s t ∧ t.pc = s.pc ∧ SameFetched s t ∧
    ∃ pre, (pre = [] ∨ pre = [.readPrompt]) ∧
      t.out = s.out ++ pre ++ [.faultReport c s.pc s.ir, .dump (dumpOf s)]

/-- Instruction fetch is coherent: a word stored at the next location is the word the very next step
fetches (20_memory.md R64, which the spec marks as derived). -/
def Obligations.StoredWordIsTheNextFetched : Prop :=
  ∀ s t u : State,
    s.rs = .executing → s.prompted = false → s.opc ≠ haltCode → s.pc + 1 < Config.memSize →
    exec (.store (s.pc + 1)) s = .next t → step t = .next u → u.ir = s.acc

/-! ### The instructions -/

/-- LOAD: acc receives the word exactly and the pc advances, nothing else changes; a location outside
memory is OutOfRange (42_load_store.md R130, R131). That acc and memory are kept at a fault is the spec's
decision D8 (log 15). -/
def Obligations.LoadSetsTheAccumulator : Prop :=
  ∀ (a : Nat) (s : State),
    (a < Config.memSize →
      exec (.load a) s = .next { s with acc := s.mem.read a, pc := s.pc + 1 }) ∧
    (Config.memSize ≤ a → Raises (.load a) s (.outOfRange a))

/-- STORE: the location holds what acc held, acc is 0 after it, the pc advances and nothing else
changes; a location outside memory is OutOfRange, with nothing written and acc kept
(42_load_store.md R132, R133). That acc and memory are kept at a fault is the spec's decision D8 (log 15). -/
def Obligations.StoreWritesAndClearsTheAccumulator : Prop :=
  ∀ (a : Nat) (s : State),
    (a < Config.memSize →
      ∃ t, exec (.store a) s = .next t ∧ t.get a = some s.acc ∧ SameCellsBut a s t ∧
        t = { s with acc := 0, pc := s.pc + 1, mem := t.mem }) ∧
    (Config.memSize ≤ a → Raises (.store a) s (.outOfRange a))

/-- ADD: the exact sum where it is a Word, else Overflow; OutOfRange comes first (43_arithmetic.md R142).
Overflow is the spec's decision D3; what a fault leaves is D7, D8, D22. -/
def Obligations.AddGivesTheExactSumOrOverflows : Prop :=
  ∀ (a : Nat) (s : State),
    (a < Config.memSize → IsWord (s.acc + s.mem.read a) →
      exec (.add a) s = .next { s with acc := s.acc + s.mem.read a, pc := s.pc + 1 }) ∧
    (a < Config.memSize → ¬IsWord (s.acc + s.mem.read a) →
      exec (.add a) s = .next (faulted s .overflow)) ∧
    (Config.memSize ≤ a → exec (.add a) s = .next (faulted s (.outOfRange a)))

/-- SUBTRACT: acc minus the word, exactly, where it is a Word, else Overflow; OutOfRange comes first
(43_arithmetic.md R143). Overflow is the spec's decision D3; what a fault leaves is D7, D8, D22. -/
def Obligations.SubtractGivesTheExactDifferenceOrOverflows : Prop :=
  ∀ (a : Nat) (s : State),
    (a < Config.memSize → IsWord (s.acc - s.mem.read a) →
      exec (.subtract a) s = .next { s with acc := s.acc - s.mem.read a, pc := s.pc + 1 }) ∧
    (a < Config.memSize → ¬IsWord (s.acc - s.mem.read a) →
      exec (.subtract a) s = .next (faulted s .overflow)) ∧
    (Config.memSize ≤ a → exec (.subtract a) s = .next (faulted s (.outOfRange a)))

/-- MULTIPLY: the exact product where it is a Word, else Overflow; OutOfRange comes first
(43_arithmetic.md R145). Overflow is the spec's decision D3; what a fault leaves is D7, D8, D22. -/
def Obligations.MultiplyGivesTheExactProductOrOverflows : Prop :=
  ∀ (a : Nat) (s : State),
    (a < Config.memSize → IsWord (s.acc * s.mem.read a) →
      exec (.multiply a) s = .next { s with acc := s.acc * s.mem.read a, pc := s.pc + 1 }) ∧
    (a < Config.memSize → ¬IsWord (s.acc * s.mem.read a) →
      exec (.multiply a) s = .next (faulted s .overflow)) ∧
    (Config.memSize ≤ a → exec (.multiply a) s = .next (faulted s (.outOfRange a)))

/-- DIVIDE: the quotient has the sign of the product of the signs and the truncated quotient of the
magnitudes, so a Word divided by a Word is a Word and Overflow cannot happen; a divisor of 0 is
DivideByZero, 0 / 0 too; OutOfRange comes first (43_arithmetic.md R144, R146). The rounding is the spec's
decision D4; what a fault leaves is D7, D8, D22. -/
def Obligations.DivideTruncatesTowardZero : Prop :=
  ∀ (a : Nat) (s : State),
    (a < Config.memSize → s.mem.read a ≠ 0 →
      ∃ t, exec (.divide a) s = .next t ∧
        t.acc = s.acc.sign * (s.mem.read a).sign *
          ((s.acc.natAbs / (s.mem.read a).natAbs : Nat) : Int) ∧
        (IsWord s.acc → IsWord t.acc) ∧
        t = { s with acc := t.acc, pc := s.pc + 1 }) ∧
    (a < Config.memSize → s.mem.read a = 0 →
      exec (.divide a) s = .next (faulted s .divideByZero)) ∧
    (Config.memSize ≤ a → exec (.divide a) s = .next (faulted s (.outOfRange a)))

/-- WRITE: the word goes to the console as it stands and the pc advances, with nothing to wait for
(41_io.md R122). That output is abstract and never blocks is the spec's decision D16; what a fault leaves
is D7, D8, D22. -/
def Obligations.WritePrintsTheWord : Prop :=
  ∀ (a : Nat) (s : State),
    (a < Config.memSize →
      exec (.write a) s = .next
        { s with out := s.out ++ [.written (s.mem.read a)], pc := s.pc + 1 }) ∧
    (Config.memSize ≤ a → exec (.write a) s = .next (faulted s (.outOfRange a)))

/-- READ with a Word supplied: the prompt, one integer consumed, the location holds it, the pc
advances and nothing else changes (41_io.md R120, R123). How the integer is supplied is the model's
choice (logs 3, 5). -/
def Obligations.ReadStoresTheConsoleInteger : Prop :=
  ∀ (a : Nat) (s : State) (v : Int) (rest : List Int),
    s.answers = v :: rest → IsWord v → a < Config.memSize →
    ∃ t, exec (.read a) s = .next t ∧ t.get a = some v ∧ SameCellsBut a s t ∧
      t = { readTaken s rest with mem := t.mem, pc := s.pc + 1 }

/-- READ's faults: a value that is no Word is InputRange, checked before the bounds; the prompt is
printed and the value consumed in either case (41_io.md R120, R121; the spec's decisions D9, D27, and D7,
D8, D22 for what a fault leaves). -/
def Obligations.ReadFaultsOnItsValueBeforeItsLocation : Prop :=
  ∀ (a : Nat) (s : State) (v : Int) (rest : List Int),
    s.answers = v :: rest →
    (¬IsWord v → exec (.read a) s = .next (faulted (readTaken s rest) .inputRange)) ∧
    (IsWord v → Config.memSize ≤ a →
      exec (.read a) s = .next (faulted (readTaken s rest) (.outOfRange a)))

/-- READ with no integer supplied prints its prompt and holds; a READ that holds goes on with the
console's integer at the location in `opd`, with no second prompt (41_io.md R120, R123; 10_state.md R25,
R38). How a hold is held is the model's choice (log 4); D9 and D22 as for READ's faults. -/
def Obligations.ReadHoldsUntilTheConsoleAnswers : Prop :=
  (∀ (a : Nat) (s : State), s.answers = [] →
    exec (.read a) s = .next { s with prompted := true, out := s.out ++ [.readPrompt] }) ∧
  (∀ (a : Nat) (s : State) (v : Int) (rest : List Int),
    s.rs = .executing → s.prompted = true → s.opd = a → s.answers = v :: rest →
    (IsWord v → a < Config.memSize →
      ∃ t, step s = .next t ∧ t.get a = some v ∧ SameCellsBut a s t ∧
        t = { s with mem := t.mem, pc := s.pc + 1, answers := rest, prompted := false }) ∧
    (¬IsWord v →
      step s = .next (faulted { s with answers := rest, prompted := false } .inputRange)))

/-- The branches: BRANCH always goes to its operand; BRANCHNEG exactly when acc < 0, BRANCHZERO
exactly when acc = 0, else to the next location; a taken branch adds no 1; nothing else changes and no
target faults (44_branch.md R160, R161, R162). -/
def Obligations.BranchesSetThePc : Prop :=
  ∀ (t : Nat) (s : State),
    exec (.branch t) s = .next { s with pc := t } ∧
    (s.acc < 0 → exec (.branchNeg t) s = .next { s with pc := t }) ∧
    (0 ≤ s.acc → exec (.branchNeg t) s = .next { s with pc := s.pc + 1 }) ∧
    (s.acc = 0 → exec (.branchZero t) s = .next { s with pc := t }) ∧
    (s.acc ≠ 0 → exec (.branchZero t) s = .next { s with pc := s.pc + 1 })

/-- A branch to itself whose condition holds changes nothing but `ic`, so it loops forever
(44_branch.md R165, which the spec marks as derived; `ic` is the spec's decision D6). The registers
already show the word, as they do after its first fetch. -/
def Obligations.BranchToItselfChangesOnlyTheCounter : Prop :=
  ∀ (s : State) (w : Int),
    AboutToFetch s w → s.ir = w → (s.opc, s.opd) = splitWord w →
    (decode w = .instr (.branch s.pc) ∨
      (decode w = .instr (.branchNeg s.pc) ∧ s.acc < 0) ∨
      (decode w = .instr (.branchZero s.pc) ∧ s.acc = 0)) →
    step s = .next { s with ic := s.ic + 1 }

/-- HALT: the run ends with one dump, whatever the operand; the pc advances (the spec's decision D7);
acc and memory are unchanged (45_halt_pause.md R170, R171, R174). -/
def Obligations.HaltEndsTheRunWithADump : Prop :=
  ∀ (x : Nat) (s : State),
    exec (.halt x) s = .next { s with
      pc := s.pc + 1, rs := .halted .halt, out := s.out ++ [.dump (dumpOf s)] }

/-- PAUSE with an acknowledgment supplied: the prompt, a dump exactly when the operator wants one, and
the run goes on at the next location, whatever the operand (45_halt_pause.md R170, R175). That the
acknowledgment carries the choice is the spec's decision D19; logs 3, 5. -/
def Obligations.PausePromptsAndResumesOnTheAcknowledgment : Prop :=
  ∀ (x : Nat) (s : State) (w : Bool) (rest : List Bool), s.acks = w :: rest →
    exec (.pause x) s = .next { s with
      pc := s.pc + 1, rs := .executing, acks := rest
      out := s.out ++ .pausePrompt :: (if w then [.dump (dumpOf s)] else []) }

/-- PAUSE with no acknowledgment supplied leaves the core Paused with its prompt printed; the only step
of a Paused core takes the acknowledgment, prints the dump if it is wanted, and executes on at the next
location (45_halt_pause.md R175, R176; D19; log 5). -/
def Obligations.PausedCoreTakesTheAcknowledgment : Prop :=
  (∀ (x : Nat) (s : State), s.acks = [] →
    exec (.pause x) s = .next { s with rs := .paused, out := s.out ++ [.pausePrompt] }) ∧
  (∀ (s : State) (w : Bool) (rest : List Bool), s.rs = .paused → s.acks = w :: rest →
    step s = .next { s with
      pc := s.pc + 1, rs := .executing, acks := rest
      out := s.out ++ (if w then [.dump (dumpOf s)] else []) })

/-! ### Frames -/

/-- LOAD, ADD, SUBTRACT, DIVIDE and MULTIPLY write acc and the pc and nothing else: every location reads
as before, and a fault leaves the state that R222 gives (10_state.md R31; D7, D8, D22 for the fault). -/
def Obligations.AccumulatorInstructionsLeaveTheRestAlone : Prop :=
  ∀ (a : Nat) (i : Instr) (s t : State),
    i = .load a ∨ i = .add a ∨ i = .subtract a ∨ i = .divide a ∨ i = .multiply a →
    exec i s = .next t →
    SameCells s t ∧ SameFetched s t ∧ SameStreams s t ∧ t.prompted = s.prompted ∧
    ((t.rs = s.rs ∧ t.out = s.out) ∨ ∃ c, t = faulted s c)

/-- STORE and READ write no location but their operand. STORE leaves the fetched registers, the
history and the console's input alone; READ leaves acc and the fetched registers alone, prints its prompt
and takes at most one integer (10_state.md R31, 41_io.md R123; logs 3, 4; D7, D8, D22 for a fault). -/
def Obligations.StoringInstructionsWriteOnlyTheirOperand : Prop :=
  ∀ (a : Nat) (s t : State),
    (exec (.store a) s = .next t →
      SameCellsBut a s t ∧ SameFetched s t ∧ SameStreams s t ∧ t.prompted = s.prompted ∧
      ((t.rs = s.rs ∧ t.out = s.out) ∨ ∃ c, t = faulted s c)) ∧
    (exec (.read a) s = .next t →
      SameCellsBut a s t ∧ t.acc = s.acc ∧ SameFetched s t ∧
      t.answers = s.answers.tail ∧ t.acks = s.acks ∧ t.requests = s.requests ∧
      ((t.rs = s.rs ∧ t.out = s.out ++ [.readPrompt]) ∨
        ∃ c, t = faulted (readTaken s s.answers.tail) c))

/-- No branch writes anything but the pc (44_branch.md R163): every register, every location, the
history and the console's input are as before. -/
def Obligations.BranchesWriteNothingButThePc : Prop :=
  ∀ (n : Nat) (i : Instr) (s t : State),
    i = .branch n ∨ i = .branchNeg n ∨ i = .branchZero n → exec i s = .next t →
    SameCells s t ∧ (t.pc = n ∨ t.pc = s.pc + 1) ∧ t = { s with pc := t.pc }

/-- WRITE, HALT and PAUSE leave acc, every location and the fetched registers alone; only PAUSE takes an
acknowledgment, and none of them takes an integer (10_state.md R31; log 3). -/
def Obligations.PrintingInstructionsLeaveAccAndMemoryAlone : Prop :=
  ∀ (n : Nat) (i : Instr) (s t : State),
    i = .write n ∨ i = .halt n ∨ i = .pause n → exec i s = .next t →
    t.acc = s.acc ∧ SameCells s t ∧ SameFetched s t ∧
    t.answers = s.answers ∧ t.requests = s.requests ∧ t.prompted = s.prompted ∧
    t.acks = (if i = .pause n then s.acks.tail else s.acks)

/-! ### The whole machine -/

/-- Every instruction, on every operand and in every state, has an effect: no handler refuses or stops
the model (40_cycle.md R106: each operation has exactly one handler; 60_exceptions.md R222: a fault is
taken). That READ and PAUSE with nothing supplied answer a next state, in which the core holds, is the
model's choice (logs 4, 5): to the spec a hold is an outcome of its own (00_scope.md R14, R19). -/
def Obligations.EveryInstructionAnswersANextState : Prop :=
  (∀ (i : Instr) (s : State), ∃ t, exec i s = .next t) ∧
  (∀ (p : Parameters) (i : Instr) (s : State), ∃ t, execUnder p i s = .next t)

/-- Every step keeps the invariant: acc, ir and every cell hold Words, `opc` and `opd` show the decoded
`ir`, cells exist in 0..N-1 only and in canonical form, the pc is in 0..max(N, 100), and prompts, PAUSE and
HALT stand where the spec puts them (10_state.md R21 to R28, 40_cycle.md R102). The Word range of results
is the spec's decisions D3, D9, D10, D14. It holds on this hardware and under all parameters. -/
def Obligations.StepKeepsTheInvariant : Prop :=
  (∀ s t : State, s.Inv → step s = .next t → t.Inv) ∧
  (∀ (p : Parameters) (s t : State), s.InvUnder p → stepUnder p s = .next t → t.InvUnder p)

/-- The constructed machine meets the invariant, under all parameters. -/
def Obligations.ResetMeetsTheInvariant : Prop :=
  State.reset.Inv ∧ ∀ p : Parameters, State.reset.InvUnder p

/-- The run state changes only as 10_state.md R27 and 70_reset_and_hazards.md R254 list. A PAUSE whose
acknowledgment is already supplied passes through Paused within its step (log 5). -/
def Obligations.RunStateChangesOnlyAsListed : Prop :=
  ∀ s t : State, step s = .next t → t.rs = s.rs ∨ RunTransition s.rs t.rs

/-- The output history only grows, across runs too: no step takes back or reorders what was printed
(10_state.md R33; that a Run keeps it is the spec's decision D16). -/
def Obligations.OutputHistoryOnlyGrows : Prop :=
  ∀ s t : State, step s = .next t → ∃ printed, t.out = s.out ++ printed

/-- Memory changes only by a Run, by entry at `ic`, by a READ that was holding at `opd`, and by a STORE
or READ at its operand (20_memory.md R58, 10_state.md R31). -/
def Obligations.OnlyRunsEntryStoreAndReadWriteMemory : Prop :=
  ∀ (s t : State) (l : Int), step s = .next t → t.get l ≠ s.get l →
    s.rs.Free ∨
    (s.rs = .loading ∧ l = s.ic) ∨
    (s.rs = .executing ∧ s.prompted = true ∧ l = s.opd) ∨
    (s.rs = .executing ∧ s.prompted = false ∧ ∃ a : Nat, l = a ∧
      (decode (s.mem.read s.pc) = .instr (.store a) ∨
        decode (s.mem.read s.pc) = .instr (.read a)))

/-- With N = 100 no instruction a word can hold leaves memory: a core that executes one never ends its
run with OutOfRange, nor does it under any N of at least 100. With a smaller N every instruction that
accesses memory ends it so where its operand is N or more, a DIVIDE before it looks at its divisor and a STORE
before it clears acc; READ has by then printed its prompt and taken a Word (20_memory.md R55, which the spec
marks as derived; D27 for the order; D7, D8, D22 for what a fault leaves). -/
def Obligations.LegalOperandsNeverLeaveMemory : Prop :=
  (∀ (i : Instr) (s t : State) (l : Int),
    i.WellFormed → s.rs = .executing → exec i s = .next t →
    t.rs ≠ .halted (.fault (.outOfRange l))) ∧
  (∀ (p : Parameters) (i : Instr) (s t : State) (l : Int),
    Config.operandMax < p.memSize → i.WellFormed → s.rs = .executing → execUnder p i s = .next t →
    t.rs ≠ .halted (.fault (.outOfRange l))) ∧
  (∀ (p : Parameters) (a : Nat) (s : State), p.memSize ≤ a →
    (∀ i : Instr, i = .write a ∨ i = .load a ∨ i = .store a ∨ i = .add a ∨ i = .subtract a ∨
        i = .divide a ∨ i = .multiply a →
      execUnder p i s = .next (faultedUnder p s (.outOfRange a))) ∧
    (∀ (v : Int) (rest : List Int), s.answers = v :: rest → IsWord v →
      execUnder p (.read a) s = .next (faultedUnder p (readTaken s rest) (.outOfRange a))))

/-- Within a run the instruction counter never falls and rises by at most one a step, and by exactly
one at every fetch (10_state.md R26; the spec's decision D6). -/
def Obligations.InstructionCounterCountsFetches : Prop :=
  ∀ s t : State, step s = .next t →
    (s.rs.Busy → s.ic ≤ t.ic ∧ t.ic ≤ s.ic + 1) ∧
    (∀ w, AboutToFetch s w → t.ic = s.ic + 1)

/-! ### The image, the patch engine and the image file -/

/-- If resolution gives an image, then every entry's word keeps its opcode and has its line's location
as operand, and every word no entry names, the length and the description are unchanged
(46_image_patch.md R202, R203, R207). Entries that share a location must agree on where they go; the spec
says translator output has no two such entries (R202, decision D15). -/
def Obligations.ResolvedBranchesGoToTheirLines : Prop :=
  ∀ (img img' : Image) (patches : List PatchEntry) (lineLoc : Int → Option Nat),
    (∀ p ∈ patches, ∀ q ∈ patches, p.location = q.location →
      lineLoc p.targetLine = lineLoc q.targetLine) →
    resolve img patches lineLoc = .next img' →
    img'.words.length = img.words.length ∧ img'.description = img.description ∧
    (∀ p ∈ patches, ∃ t : Nat, lineLoc p.targetLine = some t ∧ t ≤ Config.operandMax ∧
      0 ≤ p.location ∧ p.location < img.words.length ∧
      splitWord (img'.words.getD p.location.toNat 0) =
        ((splitWord (img.words.getD p.location.toNat 0)).1, (t : Int))) ∧
    (∀ k : Nat, (∀ p ∈ patches, p.location ≠ k) →
      img'.words.getD k 0 = img.words.getD k 0)

/-- The first entry whose line has no location stops resolution with an error that names the line, and
no image is handed on (46_image_patch.md R204; the spec's decision D15). -/
def Obligations.UndefinedLineStopsResolution : Prop :=
  ∀ (img img' : Image) (done todo : List PatchEntry) (p : PatchEntry) (lineLoc : Int → Option Nat),
    resolve img done lineLoc = .next img' → lineLoc p.targetLine = none →
    resolve img (done ++ p :: todo) lineLoc = .fault (.undefinedReference p.targetLine)

/-- The three malformed entries are refused by name, also behind entries that resolve
(46_image_patch.md R205; the spec's decision D15). -/
def Obligations.MalformedPatchEntryIsRefused : Prop :=
  ∀ (img img' : Image) (done todo : List PatchEntry) (p : PatchEntry)
    (lineLoc : Int → Option Nat) (t : Nat),
    resolve img done lineLoc = .next img' → lineLoc p.targetLine = some t →
    (p.location < 0 ∨ (img'.words.length : Int) ≤ p.location →
      resolve img (done ++ p :: todo) lineLoc = .refused (.patchLocation p.location)) ∧
    (0 ≤ p.location → p.location < img'.words.length →
      (splitWord (img'.words.getD p.location.toNat 0)).1 ∉
        [codeOf .branch, codeOf .branchNeg, codeOf .branchZero] →
      resolve img (done ++ p :: todo) lineLoc = .refused (.patchNotBranch p.location)) ∧
    (0 ≤ p.location → p.location < img'.words.length →
      (splitWord (img'.words.getD p.location.toNat 0)).1 ∈
        [codeOf .branch, codeOf .branchNeg, codeOf .branchZero] →
      Config.operandMax < t →
      resolve img (done ++ p :: todo) lineLoc = .refused (.patchTargetRange t))

/-- The container: Append puts a Word at the end and gives its location; OverwriteAt changes the one
location and never grows the image; a location outside it or a value that is no Word is refused
(46_image_patch.md R191, R192, R194; the refusals are the spec's decision D21). -/
def Obligations.ImageAppendsAndOverwritesByLocation : Prop :=
  ∀ (img : Image) (loc v : Int),
    (IsWord v → ∃ img', append img v = .next (img', img.words.length) ∧
      img'.words = img.words ++ [v] ∧ img'.description = img.description) ∧
    (¬IsWord v → append img v = .refused (.imageWord v)) ∧
    (0 ≤ loc → loc < img.words.length → IsWord v → ∃ img', overwriteAt img loc v = .next img' ∧
      img'.words.length = img.words.length ∧ img'.description = img.description ∧
      img'.words.getD loc.toNat 0 = v ∧
      ∀ k : Nat, (k : Int) ≠ loc → img'.words.getD k 0 = img.words.getD k 0) ∧
    (0 ≤ loc → loc < img.words.length → ¬IsWord v →
      overwriteAt img loc v = .refused (.imageWord v)) ∧
    (loc < 0 ∨ (img.words.length : Int) ≤ loc →
      overwriteAt img loc v = .refused (.imageLocation loc))

/-- An image of Words written to a file and read back is the same image, description and trailing 0
words too (46_image_patch.md R210, R211; the file's syntax is the spec's decision D25, and log 19). That it
holds of a description with a line break too rests on the model's choice of text and lines (log 27). -/
def Obligations.ImageFileReadsBackTheImage : Prop :=
  ∀ img : Image, img.WordsOnly → readImageFile (writeImageFile img) = .next img

/-- A file that names a location twice, or holds a line that cannot be read, is refused wherever the
line stands (46_image_patch.md R211; the spec's decision D25). -/
def Obligations.ImageFileRefusesARepeatedOrMalformedLine : Prop :=
  (∀ (before after : List Text) (line : Text), readLine line = none →
    readImageFile (before ++ line :: after) = .refused .imageFile) ∧
  (∀ (before between after : List Text) (line line' : Text) (l : Nat) (w w' : Int),
    readLine line = some (.cell l w) → readLine line' = some (.cell l w') →
    readImageFile (before ++ line :: between ++ line' :: after) = .refused .imageFile)

/-- The written form of every well-formed instruction, and of every Word as data, denotes that word, and
the operand of HALT and PAUSE may be written 00 or left out (30_encoding.md R86: the spec's decision D25;
the numbers are D1; log 30). -/
def Obligations.WrittenFormDenotesTheWord : Prop :=
  (∀ i : Instr, i.WellFormed → readWritten (writeInstr i) = some (encode i)) ∧
  (∀ w : Int, IsWord w → readWritten (writeWord w) = some w) ∧
  (∀ op : Op, readWritten (opName op ++ [' ', '0', '0']) = some (joinWord (codeOf op) 0))
end

