-- ==== Sys2Proof/Laws/Codec.lean ====
section
/-! SUPPORT. The opcode map and the codec, by small lemmas: the map and its reading are inverse, and
decoding in terms of Euclidean division, on which omega works. -/

namespace Sys2Proof

theorem mem_allOps (op : Op) : op ∈ allOps := by cases op <;> decide

namespace OpcodeAssignment

/-- `OpOf` reads an assignment backwards. -/
theorem opOf_code (m : OpcodeAssignment) (op : Op) : m.opOf (m.code op) = some op := by
  have h : (m.opOf (m.code op)).isSome := by
    simp only [opOf, List.find?_isSome]
    exact ⟨op, mem_allOps op, by simp⟩
  obtain ⟨op', e⟩ := Option.isSome_iff_exists.mp h
  have c : m.code op' = m.code op := by simpa using List.find?_some e
  rw [e, m.injective _ _ c]

/-- ... and only so. -/
theorem opOf_eq_some (m : OpcodeAssignment) (opcode : Int) (op : Op) :
    m.opOf opcode = some op ↔ m.code op = opcode :=
  ⟨fun h => by simpa using List.find?_some h, fun h => h ▸ m.opOf_code op⟩

/-- Every assignment meets every number of the set, since there are as many numbers as operations
(30_encoding.md R79, R80). -/
theorem exists_code (m : OpcodeAssignment) (n : Int) : n ∈ opcodeSet ↔ ∃ op, m.code op = n := by
  have nd : (allOps.map m.code).Nodup :=
    List.Nodup.map (fun a b h => m.injective a b h) (by decide)
  have sub : allOps.map m.code ⊆ opcodeSet := by
    intro x hx
    obtain ⟨op, _, rfl⟩ := List.mem_map.mp hx
    exact m.inSet op
  have perm := (nd.subperm sub).perm_of_length_le (by simp [opcodeSet, allOps])
  rw [← perm.mem_iff]
  simp [mem_allOps]

/-- The branch numbers are 40, 41 and 42 under every assignment, for it keeps their decade
(30_encoding.md R80, 46_image_patch.md R203). -/
theorem mem_branch_codes (m : OpcodeAssignment) (n : Int) :
    n ∈ [m.code .branch, m.code .branchNeg, m.code .branchZero] ↔ n ∈ [(40 : Int), 41, 42] := by
  have dec : ∀ op, m.code op ∈ [(40 : Int), 41, 42] ↔ op.decade = 4 := by
    intro op
    have h1 := m.inSet op
    have h2 := m.keepsDecade op
    simp only [opcodeSet, List.mem_cons, List.not_mem_nil, or_false] at h1 ⊢
    omega
  constructor
  · intro h
    simp only [List.mem_cons, List.not_mem_nil, or_false] at h
    rcases h with rfl | rfl | rfl <;> exact (dec _).mpr rfl
  · intro h
    obtain ⟨op, rfl⟩ := (m.exists_code n).mp (by revert h; simp [opcodeSet]; omega)
    have h4 := (dec op).mp h
    cases op <;> simp_all [Op.decade]

theorem opOf_eq_none (m : OpcodeAssignment) (opcode : Int) :
    m.opOf opcode = none ↔ opcode ∉ opcodeSet := by
  rw [m.exists_code, ← not_iff_not, not_not, ← ne_eq, Option.ne_none_iff_exists']
  simp only [m.opOf_eq_some]

/-- Decoding is illegal exactly when the opcode is not in the set (30_encoding.md R82). -/
theorem decode_eq_illegal (m : OpcodeAssignment) (w : Int) :
    m.decode w = .illegalOpcode ↔ (splitWord w).1 ∉ opcodeSet := by
  rw [← m.opOf_eq_none]
  unfold decode
  split <;> rename_i h <;> simp [h]

end OpcodeAssignment

/-! ### This hardware's assignment: one spelling of each of its parts -/

@[simp] theorem opcodeAssignment_code : opcodeAssignment.code = codeOf := rfl

theorem opcodeAssignment_opOf (n : Int) : opcodeAssignment.opOf n = opOf n := rfl

theorem opcodeAssignment_haltCode : opcodeAssignment.haltCode = haltCode := rfl

theorem opcodeAssignment_decode (w : Int) : opcodeAssignment.decode w = decode w := rfl

theorem opcodeAssignment_encode (i : Instr) : opcodeAssignment.encode i = encode i := rfl

theorem encode_eq (i : Instr) : encode i = codeOf i.op * 100 + i.operand := rfl

theorem codeOf_bounds (op : Op) : 10 ≤ codeOf op ∧ codeOf op ≤ 51 := by cases op <;> decide

theorem opOf_codeOf (op : Op) : opOf (codeOf op) = some op := opcodeAssignment.opOf_code op

theorem opOf_eq_some (opcode : Int) (op : Op) : opOf opcode = some op ↔ codeOf op = opcode :=
  opcodeAssignment.opOf_eq_some opcode op

theorem opOf_eq_none (opcode : Int) : opOf opcode = none ↔ opcode ∉ opcodeSet :=
  opcodeAssignment.opOf_eq_none opcode

theorem codeOf_injective (a b : Op) (h : codeOf a = codeOf b) : a = b :=
  opcodeAssignment.injective a b h

@[simp] theorem instrOf_op_operand (i : Instr) : instrOf i.op i.operand = i := by cases i <;> rfl

@[simp] theorem op_instrOf (op : Op) (n : Nat) : (instrOf op n).op = op := by cases op <;> rfl

@[simp] theorem operand_instrOf (op : Op) (n : Nat) : (instrOf op n).operand = n := by
  cases op <;> rfl

theorem splitWord_of_nonneg (w : Int) (h : 0 ≤ w) : splitWord w = (w / 100, w - 100 * (w / 100)) := by
  simp [splitWord, Int.tdiv_eq_ediv_of_nonneg h]

theorem splitWord_of_nonpos (w : Int) (h : w ≤ 0) :
    splitWord w = (-(-w / 100), w + 100 * (-w / 100)) := by
  have e : w.tdiv 100 = -(-w / 100) := by
    rw [← Int.tdiv_eq_ediv_of_nonneg (by omega), Int.neg_tdiv, Int.neg_neg]
  simp only [splitWord, e, Prod.mk.injEq, true_and]
  omega

/-- Decoding gives an instruction exactly when the fields are its opcode and operand. -/
theorem OpcodeAssignment.decode_eq_instr (m : OpcodeAssignment) (w : Int) (i : Instr) :
    m.decode w = .instr i ↔ (splitWord w).1 = m.code i.op ∧ (splitWord w).2.toNat = i.operand := by
  unfold OpcodeAssignment.decode
  split
  · next h =>
    simp only [reduceCtorEq, false_iff, not_and]
    intro e
    rw [e, m.opOf_code] at h
    cases h
  · next op h =>
    have e := (m.opOf_eq_some _ _).mp h
    constructor
    · intro hi
      injection hi with hi
      subst hi
      exact ⟨by simp [e], by simp⟩
    · rintro ⟨h1, h2⟩
      rw [h1] at e
      rw [m.injective _ _ e, h2, instrOf_op_operand]

theorem decode_eq_illegal (w : Int) : decode w = .illegalOpcode ↔ (splitWord w).1 ∉ opcodeSet :=
  opcodeAssignment.decode_eq_illegal w

theorem decode_eq_instr (w : Int) (i : Instr) :
    decode w = .instr i ↔ (splitWord w).1 = codeOf i.op ∧ (splitWord w).2.toNat = i.operand :=
  opcodeAssignment.decode_eq_instr w i

end Sys2Proof
end

