-- ==== Sys2Proof/Laws/Memory.lean ====
section
/-! SUPPORT. Memory as data: what a read sees after each operation, and that every operation keeps the
canonical form. The read lemmas hold of every list, canonical or not. -/

namespace Sys2Proof.Machine

/-! ### Reading after an operation -/

@[simp] theorem Memory.read_nil (a : Nat) : Memory.read [] a = 0 := rfl

theorem Memory.read_cons (k : Nat) (v : Int) (m : Memory) (a : Nat) :
    Memory.read ((k, v) :: m) a = if k = a then v else Memory.read m a := rfl

theorem Memory.read_eq_zero (m : Memory) (a : Nat) (h : ∀ c ∈ m, c.1 ≠ a) : m.read a = 0 := by
  induction m with
  | nil => rfl
  | cons c m ih =>
    have hc : c.1 ≠ a := h c (by simp)
    have hm : ∀ d ∈ m, d.1 ≠ a := fun d hd => h d (by simp [hd])
    simp [Memory.read, hc, ih hm]

theorem Memory.mem_erase (m : Memory) (a : Nat) (c : Nat × Int) :
    c ∈ m.erase a ↔ c ∈ m ∧ c.1 ≠ a := by
  simp [Memory.erase]

theorem Memory.read_erase_self (m : Memory) (a : Nat) : (m.erase a).read a = 0 :=
  Memory.read_eq_zero _ a (fun c hc => ((Memory.mem_erase m a c).mp hc).2)

theorem Memory.read_erase_other (m : Memory) (a b : Nat) (h : b ≠ a) :
    (m.erase a).read b = m.read b := by
  induction m with
  | nil => rfl
  | cons c m ih =>
    obtain ⟨k, v⟩ := c
    simp only [Memory.erase] at ih ⊢
    by_cases hk : k = a
    · have hb : k ≠ b := fun e => h (e ▸ hk)
      simp [hk, Memory.read_cons, ih]
      intro e; exact absurd e.symm h
    · simp [hk, Memory.read_cons, ih]

theorem Memory.read_insert_self (m : Memory) (a : Nat) (v : Int) (h : ∀ c ∈ m, c.1 ≠ a) :
    (m.insert a v).read a = v := by
  induction m with
  | nil => simp [Memory.insert, Memory.read_cons]
  | cons c m ih =>
    obtain ⟨k, w⟩ := c
    have hk : k ≠ a := h (k, w) (by simp)
    have hm : ∀ d ∈ m, d.1 ≠ a := fun d hd => h d (by simp [hd])
    simp only [Memory.insert]
    split
    · simp [Memory.read_cons]
    · simp [Memory.read_cons, hk, ih hm]

theorem Memory.read_insert_other (m : Memory) (a b : Nat) (v : Int) (h : b ≠ a) :
    (m.insert a v).read b = m.read b := by
  have h' : a ≠ b := fun e => h e.symm
  induction m with
  | nil => simp [Memory.insert, Memory.read_cons, h']
  | cons c m ih =>
    obtain ⟨k, w⟩ := c
    simp only [Memory.insert]
    split
    · simp [Memory.read_cons, h']
    · simp [Memory.read_cons, ih]

@[simp] theorem Memory.read_write_self (m : Memory) (a : Nat) (v : Int) :
    (m.write a v).read a = v := by
  unfold Memory.write
  split
  · next h => rw [h, Memory.read_erase_self]
  · exact Memory.read_insert_self _ _ _ (fun c hc => ((Memory.mem_erase m a c).mp hc).2)

theorem Memory.read_write_other (m : Memory) (a b : Nat) (v : Int) (h : b ≠ a) :
    (m.write a v).read b = m.read b := by
  unfold Memory.write
  split
  · exact Memory.read_erase_other m a b h
  · rw [Memory.read_insert_other _ _ _ _ h, Memory.read_erase_other m a b h]

/-! ### Which entries an operation can leave -/

theorem Memory.mem_insert (m : Memory) (a : Nat) (v : Int) (c : Nat × Int) :
    c ∈ m.insert a v ↔ c = (a, v) ∨ c ∈ m := by
  induction m with
  | nil => simp [Memory.insert]
  | cons d m ih =>
    obtain ⟨k, w⟩ := d
    simp only [Memory.insert]
    split
    · simp
    · simp only [List.mem_cons, ih]; tauto

/-- An entry after a write is the written one or was there before. -/
theorem Memory.mem_write (m : Memory) (a : Nat) (v : Int) (c : Nat × Int)
    (h : c ∈ m.write a v) : c = (a, v) ∨ c ∈ m := by
  unfold Memory.write at h
  split at h
  · exact .inr ((Memory.mem_erase m a c).mp h).1
  · rcases (Memory.mem_insert _ a v c).mp h with e | e
    · exact .inl e
    · exact .inr ((Memory.mem_erase m a c).mp e).1

/-- The word a read gives is 0 or stands in an entry for that location. -/
theorem Memory.read_zero_or_mem (m : Memory) (a : Nat) : m.read a = 0 ∨ (a, m.read a) ∈ m := by
  induction m with
  | nil => exact .inl rfl
  | cons c m ih =>
    obtain ⟨k, v⟩ := c
    by_cases hk : k = a
    · subst hk; right; simp [Memory.read_cons]
    · rcases ih with e | e
      · left; simpa [Memory.read_cons, hk] using e
      · right
        simp only [Memory.read_cons, hk, if_false]
        exact List.mem_cons_of_mem _ e

/-! ### The canonical form -/

theorem Memory.wf_nil : Memory.wf [] := ⟨List.Pairwise.nil, fun _ h => absurd h List.not_mem_nil⟩

theorem Memory.erase_wf (m : Memory) (a : Nat) (h : m.wf) : (m.erase a).wf :=
  ⟨h.1.filter _, fun c hc => h.2 c ((Memory.mem_erase m a c).mp hc).1⟩

theorem Memory.insert_wf (m : Memory) (a : Nat) (v : Int) (h : m.wf) (hv : v ≠ 0)
    (ha : ∀ c ∈ m, c.1 ≠ a) : (m.insert a v).wf := by
  refine ⟨?_, ?_⟩
  · induction m with
    | nil => simp [Memory.insert]
    | cons d m ih =>
      obtain ⟨k, w⟩ := d
      have hp := List.pairwise_cons.mp h.1
      have hk : k ≠ a := ha (k, w) (by simp)
      have hrest := ih ⟨hp.2, fun c hc => h.2 c (by simp [hc])⟩ (fun c hc => ha c (by simp [hc]))
      simp only [Memory.insert]
      split
      · next hlt =>
        refine List.pairwise_cons.mpr ⟨?_, h.1⟩
        intro c hc
        rcases List.mem_cons.mp hc with e | e
        · subst e; exact hlt
        · exact Nat.lt_trans hlt (hp.1 c e)
      · next hge =>
        refine List.pairwise_cons.mpr ⟨?_, hrest⟩
        intro c hc
        rcases (Memory.mem_insert m a v c).mp hc with e | e
        · subst e; simp only; omega
        · exact hp.1 c e
  · intro c hc
    rcases (Memory.mem_insert m a v c).mp hc with e | e
    · subst e; exact hv
    · exact h.2 c e

theorem Memory.write_wf (m : Memory) (a : Nat) (v : Int) (h : m.wf) : (m.write a v).wf := by
  unfold Memory.write
  split
  · exact Memory.erase_wf m a h
  · next hv =>
    exact Memory.insert_wf _ a v (Memory.erase_wf m a h) hv
      (fun c hc => ((Memory.mem_erase m a c).mp hc).2)

/-- A property of entries that the written words have and the memory has, the loaded memory has. -/
theorem Memory.loadFrom_induction (p : Parameters) (P : Memory → Prop) (ws : List Int)
    (hstep : ∀ m i w, P m → i < p.memSize → w ∈ ws → P (m.write i w)) (i : Nat) (m : Memory)
    (h : P m) : P (Memory.loadFrom p i ws m) := by
  induction ws generalizing i m with
  | nil => exact h
  | cons w ws ih =>
    simp only [Memory.loadFrom]
    split
    · next hi =>
      exact ih (fun m i x hm hi hx => hstep m i x hm hi (by simp [hx])) _ _
        (hstep m i w h hi (by simp))
    · exact h

theorem Memory.loadFrom_wf (p : Parameters) (i : Nat) (ws : List Int) (m : Memory) (h : m.wf) :
    (Memory.loadFrom p i ws m).wf :=
  Memory.loadFrom_induction p Memory.wf ws (fun m i w hm _ _ => Memory.write_wf m i w hm) i m h

theorem State.reset_mem_wf : State.reset.mem.wf := Memory.wf_nil

/-! ### Reading a loaded memory -/

/-- The bulk load leaves every location below its start alone. -/
theorem Memory.read_loadFrom_below (p : Parameters) (i : Nat) (ws : List Int) (m : Memory) (a : Nat) (h : a < i) :
    (Memory.loadFrom p i ws m).read a = m.read a := by
  induction ws generalizing i m with
  | nil => rfl
  | cons w ws ih =>
    simp only [Memory.loadFrom]
    split
    · rw [ih (i + 1) _ (by omega), Memory.read_write_other _ _ _ _ (by omega)]
    · rfl

/-- What a location holds after the bulk load: the image's word where it has one below N, else what
it held before (70_reset_and_hazards.md R260). -/
theorem Memory.read_loadFrom (p : Parameters) (i : Nat) (ws : List Int) (m : Memory) (k : Nat) :
    (Memory.loadFrom p i ws m).read (i + k)
      = if k < ws.length ∧ i + k < p.memSize then ws.getD k 0 else m.read (i + k) := by
  induction ws generalizing i m k with
  | nil => simp [Memory.loadFrom]
  | cons w ws ih =>
    simp only [Memory.loadFrom]
    split
    · next hi =>
      cases k with
      | zero => simp [Memory.read_loadFrom_below, hi]
      | succ k =>
        have e : i + (k + 1) = (i + 1) + k := by omega
        rw [e, ih (i + 1) _ k, Memory.read_write_other _ _ _ _ (by omega)]
        simp only [List.length_cons, List.getD_cons_succ, Nat.add_lt_add_iff_right]
    · next hi =>
      have : ¬(k < (w :: ws).length ∧ i + k < p.memSize) := by omega
      simp only [this, if_false]

end Sys2Proof.Machine
end

