-- ==== Sys2Proof/Laws/State.lean ====
section
/-! SUPPORT. Every field after every named update of the state: one lemma each, so that no proof
unfolds an update. -/

namespace Sys2Proof.Machine

/-! ### Fields after `acc <- v` -/

@[simp] theorem State.setAcc_acc (s : State) (v : Int) : (s.setAcc v).acc = v := rfl
@[simp] theorem State.setAcc_pc (s : State) (v : Int) : (s.setAcc v).pc = s.pc := rfl
@[simp] theorem State.setAcc_ir (s : State) (v : Int) : (s.setAcc v).ir = s.ir := rfl
@[simp] theorem State.setAcc_opc (s : State) (v : Int) : (s.setAcc v).opc = s.opc := rfl
@[simp] theorem State.setAcc_opd (s : State) (v : Int) : (s.setAcc v).opd = s.opd := rfl
@[simp] theorem State.setAcc_ic (s : State) (v : Int) : (s.setAcc v).ic = s.ic := rfl
@[simp] theorem State.setAcc_rs (s : State) (v : Int) : (s.setAcc v).rs = s.rs := rfl
@[simp] theorem State.setAcc_mem (s : State) (v : Int) : (s.setAcc v).mem = s.mem := rfl
@[simp] theorem State.setAcc_out (s : State) (v : Int) : (s.setAcc v).out = s.out := rfl
@[simp] theorem State.setAcc_prompted (s : State) (v : Int) : (s.setAcc v).prompted = s.prompted := rfl
@[simp] theorem State.setAcc_answers (s : State) (v : Int) : (s.setAcc v).answers = s.answers := rfl
@[simp] theorem State.setAcc_acks (s : State) (v : Int) : (s.setAcc v).acks = s.acks := rfl
@[simp] theorem State.setAcc_requests (s : State) (v : Int) : (s.setAcc v).requests = s.requests := rfl

/-! ### Fields after `pc <- pc + 1` -/

@[simp] theorem State.advance_acc (s : State) : (s.advance).acc = s.acc := rfl
@[simp] theorem State.advance_pc (s : State) : (s.advance).pc = s.pc + 1 := rfl
@[simp] theorem State.advance_ir (s : State) : (s.advance).ir = s.ir := rfl
@[simp] theorem State.advance_opc (s : State) : (s.advance).opc = s.opc := rfl
@[simp] theorem State.advance_opd (s : State) : (s.advance).opd = s.opd := rfl
@[simp] theorem State.advance_ic (s : State) : (s.advance).ic = s.ic := rfl
@[simp] theorem State.advance_rs (s : State) : (s.advance).rs = s.rs := rfl
@[simp] theorem State.advance_mem (s : State) : (s.advance).mem = s.mem := rfl
@[simp] theorem State.advance_out (s : State) : (s.advance).out = s.out := rfl
@[simp] theorem State.advance_prompted (s : State) : (s.advance).prompted = s.prompted := rfl
@[simp] theorem State.advance_answers (s : State) : (s.advance).answers = s.answers := rfl
@[simp] theorem State.advance_acks (s : State) : (s.advance).acks = s.acks := rfl
@[simp] theorem State.advance_requests (s : State) : (s.advance).requests = s.requests := rfl

/-! ### Fields after `pc <- t` -/

@[simp] theorem State.jump_acc (s : State) (t : Nat) : (s.jump t).acc = s.acc := rfl
@[simp] theorem State.jump_pc (s : State) (t : Nat) : (s.jump t).pc = t := rfl
@[simp] theorem State.jump_ir (s : State) (t : Nat) : (s.jump t).ir = s.ir := rfl
@[simp] theorem State.jump_opc (s : State) (t : Nat) : (s.jump t).opc = s.opc := rfl
@[simp] theorem State.jump_opd (s : State) (t : Nat) : (s.jump t).opd = s.opd := rfl
@[simp] theorem State.jump_ic (s : State) (t : Nat) : (s.jump t).ic = s.ic := rfl
@[simp] theorem State.jump_rs (s : State) (t : Nat) : (s.jump t).rs = s.rs := rfl
@[simp] theorem State.jump_mem (s : State) (t : Nat) : (s.jump t).mem = s.mem := rfl
@[simp] theorem State.jump_out (s : State) (t : Nat) : (s.jump t).out = s.out := rfl
@[simp] theorem State.jump_prompted (s : State) (t : Nat) : (s.jump t).prompted = s.prompted := rfl
@[simp] theorem State.jump_answers (s : State) (t : Nat) : (s.jump t).answers = s.answers := rfl
@[simp] theorem State.jump_acks (s : State) (t : Nat) : (s.jump t).acks = s.acks := rfl
@[simp] theorem State.jump_requests (s : State) (t : Nat) : (s.jump t).requests = s.requests := rfl

/-! ### Fields after `rs <- r` -/

@[simp] theorem State.setRunState_acc (s : State) (r : RunState) : (s.setRunState r).acc = s.acc := rfl
@[simp] theorem State.setRunState_pc (s : State) (r : RunState) : (s.setRunState r).pc = s.pc := rfl
@[simp] theorem State.setRunState_ir (s : State) (r : RunState) : (s.setRunState r).ir = s.ir := rfl
@[simp] theorem State.setRunState_opc (s : State) (r : RunState) : (s.setRunState r).opc = s.opc := rfl
@[simp] theorem State.setRunState_opd (s : State) (r : RunState) : (s.setRunState r).opd = s.opd := rfl
@[simp] theorem State.setRunState_ic (s : State) (r : RunState) : (s.setRunState r).ic = s.ic := rfl
@[simp] theorem State.setRunState_rs (s : State) (r : RunState) : (s.setRunState r).rs = r := rfl
@[simp] theorem State.setRunState_mem (s : State) (r : RunState) : (s.setRunState r).mem = s.mem := rfl
@[simp] theorem State.setRunState_out (s : State) (r : RunState) : (s.setRunState r).out = s.out := rfl
@[simp] theorem State.setRunState_prompted (s : State) (r : RunState) : (s.setRunState r).prompted = s.prompted := rfl
@[simp] theorem State.setRunState_answers (s : State) (r : RunState) : (s.setRunState r).answers = s.answers := rfl
@[simp] theorem State.setRunState_acks (s : State) (r : RunState) : (s.setRunState r).acks = s.acks := rfl
@[simp] theorem State.setRunState_requests (s : State) (r : RunState) : (s.setRunState r).requests = s.requests := rfl

/-! ### Fields after `emit e` -/

@[simp] theorem State.emit_acc (s : State) (e : OutEvent) : (s.emit e).acc = s.acc := rfl
@[simp] theorem State.emit_pc (s : State) (e : OutEvent) : (s.emit e).pc = s.pc := rfl
@[simp] theorem State.emit_ir (s : State) (e : OutEvent) : (s.emit e).ir = s.ir := rfl
@[simp] theorem State.emit_opc (s : State) (e : OutEvent) : (s.emit e).opc = s.opc := rfl
@[simp] theorem State.emit_opd (s : State) (e : OutEvent) : (s.emit e).opd = s.opd := rfl
@[simp] theorem State.emit_ic (s : State) (e : OutEvent) : (s.emit e).ic = s.ic := rfl
@[simp] theorem State.emit_rs (s : State) (e : OutEvent) : (s.emit e).rs = s.rs := rfl
@[simp] theorem State.emit_mem (s : State) (e : OutEvent) : (s.emit e).mem = s.mem := rfl
@[simp] theorem State.emit_out (s : State) (e : OutEvent) : (s.emit e).out = s.out ++ [e] := rfl
@[simp] theorem State.emit_prompted (s : State) (e : OutEvent) : (s.emit e).prompted = s.prompted := rfl
@[simp] theorem State.emit_answers (s : State) (e : OutEvent) : (s.emit e).answers = s.answers := rfl
@[simp] theorem State.emit_acks (s : State) (e : OutEvent) : (s.emit e).acks = s.acks := rfl
@[simp] theorem State.emit_requests (s : State) (e : OutEvent) : (s.emit e).requests = s.requests := rfl

/-! ### Fields after a dump emitted -/

@[simp] theorem State.emitDump_acc (p : Parameters) (s : State) : (s.emitDump p).acc = s.acc := rfl
@[simp] theorem State.emitDump_pc (p : Parameters) (s : State) : (s.emitDump p).pc = s.pc := rfl
@[simp] theorem State.emitDump_ir (p : Parameters) (s : State) : (s.emitDump p).ir = s.ir := rfl
@[simp] theorem State.emitDump_opc (p : Parameters) (s : State) : (s.emitDump p).opc = s.opc := rfl
@[simp] theorem State.emitDump_opd (p : Parameters) (s : State) : (s.emitDump p).opd = s.opd := rfl
@[simp] theorem State.emitDump_ic (p : Parameters) (s : State) : (s.emitDump p).ic = s.ic := rfl
@[simp] theorem State.emitDump_rs (p : Parameters) (s : State) : (s.emitDump p).rs = s.rs := rfl
@[simp] theorem State.emitDump_mem (p : Parameters) (s : State) : (s.emitDump p).mem = s.mem := rfl
@[simp] theorem State.emitDump_out (p : Parameters) (s : State) : (s.emitDump p).out = s.out ++ [.dump (dumpOfUnder p s)] := rfl
@[simp] theorem State.emitDump_prompted (p : Parameters) (s : State) : (s.emitDump p).prompted = s.prompted := rfl
@[simp] theorem State.emitDump_answers (p : Parameters) (s : State) : (s.emitDump p).answers = s.answers := rfl
@[simp] theorem State.emitDump_acks (p : Parameters) (s : State) : (s.emitDump p).acks = s.acks := rfl
@[simp] theorem State.emitDump_requests (p : Parameters) (s : State) : (s.emitDump p).requests = s.requests := rfl

/-! ### Fields after a hold at a prompt -/

@[simp] theorem State.hold_acc (s : State) : (s.hold).acc = s.acc := rfl
@[simp] theorem State.hold_pc (s : State) : (s.hold).pc = s.pc := rfl
@[simp] theorem State.hold_ir (s : State) : (s.hold).ir = s.ir := rfl
@[simp] theorem State.hold_opc (s : State) : (s.hold).opc = s.opc := rfl
@[simp] theorem State.hold_opd (s : State) : (s.hold).opd = s.opd := rfl
@[simp] theorem State.hold_ic (s : State) : (s.hold).ic = s.ic := rfl
@[simp] theorem State.hold_rs (s : State) : (s.hold).rs = s.rs := rfl
@[simp] theorem State.hold_mem (s : State) : (s.hold).mem = s.mem := rfl
@[simp] theorem State.hold_out (s : State) : (s.hold).out = s.out := rfl
@[simp] theorem State.hold_prompted (s : State) : (s.hold).prompted = true := rfl
@[simp] theorem State.hold_answers (s : State) : (s.hold).answers = s.answers := rfl
@[simp] theorem State.hold_acks (s : State) : (s.hold).acks = s.acks := rfl
@[simp] theorem State.hold_requests (s : State) : (s.hold).requests = s.requests := rfl

/-! ### Fields after an answer taken -/

@[simp] theorem State.takeAnswer_acc (s : State) (l : List Int) : (s.takeAnswer l).acc = s.acc := rfl
@[simp] theorem State.takeAnswer_pc (s : State) (l : List Int) : (s.takeAnswer l).pc = s.pc := rfl
@[simp] theorem State.takeAnswer_ir (s : State) (l : List Int) : (s.takeAnswer l).ir = s.ir := rfl
@[simp] theorem State.takeAnswer_opc (s : State) (l : List Int) : (s.takeAnswer l).opc = s.opc := rfl
@[simp] theorem State.takeAnswer_opd (s : State) (l : List Int) : (s.takeAnswer l).opd = s.opd := rfl
@[simp] theorem State.takeAnswer_ic (s : State) (l : List Int) : (s.takeAnswer l).ic = s.ic := rfl
@[simp] theorem State.takeAnswer_rs (s : State) (l : List Int) : (s.takeAnswer l).rs = s.rs := rfl
@[simp] theorem State.takeAnswer_mem (s : State) (l : List Int) : (s.takeAnswer l).mem = s.mem := rfl
@[simp] theorem State.takeAnswer_out (s : State) (l : List Int) : (s.takeAnswer l).out = s.out := rfl
@[simp] theorem State.takeAnswer_prompted (s : State) (l : List Int) : (s.takeAnswer l).prompted = false := rfl
@[simp] theorem State.takeAnswer_answers (s : State) (l : List Int) : (s.takeAnswer l).answers = l := rfl
@[simp] theorem State.takeAnswer_acks (s : State) (l : List Int) : (s.takeAnswer l).acks = s.acks := rfl
@[simp] theorem State.takeAnswer_requests (s : State) (l : List Int) : (s.takeAnswer l).requests = s.requests := rfl

/-! ### Fields after an acknowledgment taken -/

@[simp] theorem State.takeAck_acc (s : State) (l : List Bool) : (s.takeAck l).acc = s.acc := rfl
@[simp] theorem State.takeAck_pc (s : State) (l : List Bool) : (s.takeAck l).pc = s.pc := rfl
@[simp] theorem State.takeAck_ir (s : State) (l : List Bool) : (s.takeAck l).ir = s.ir := rfl
@[simp] theorem State.takeAck_opc (s : State) (l : List Bool) : (s.takeAck l).opc = s.opc := rfl
@[simp] theorem State.takeAck_opd (s : State) (l : List Bool) : (s.takeAck l).opd = s.opd := rfl
@[simp] theorem State.takeAck_ic (s : State) (l : List Bool) : (s.takeAck l).ic = s.ic := rfl
@[simp] theorem State.takeAck_rs (s : State) (l : List Bool) : (s.takeAck l).rs = s.rs := rfl
@[simp] theorem State.takeAck_mem (s : State) (l : List Bool) : (s.takeAck l).mem = s.mem := rfl
@[simp] theorem State.takeAck_out (s : State) (l : List Bool) : (s.takeAck l).out = s.out := rfl
@[simp] theorem State.takeAck_prompted (s : State) (l : List Bool) : (s.takeAck l).prompted = s.prompted := rfl
@[simp] theorem State.takeAck_answers (s : State) (l : List Bool) : (s.takeAck l).answers = s.answers := rfl
@[simp] theorem State.takeAck_acks (s : State) (l : List Bool) : (s.takeAck l).acks = l := rfl
@[simp] theorem State.takeAck_requests (s : State) (l : List Bool) : (s.takeAck l).requests = s.requests := rfl

/-! ### Fields after memory cleared -/

@[simp] theorem State.clear_acc (s : State) : (s.clear).acc = s.acc := rfl
@[simp] theorem State.clear_pc (s : State) : (s.clear).pc = s.pc := rfl
@[simp] theorem State.clear_ir (s : State) : (s.clear).ir = s.ir := rfl
@[simp] theorem State.clear_opc (s : State) : (s.clear).opc = s.opc := rfl
@[simp] theorem State.clear_opd (s : State) : (s.clear).opd = s.opd := rfl
@[simp] theorem State.clear_ic (s : State) : (s.clear).ic = s.ic := rfl
@[simp] theorem State.clear_rs (s : State) : (s.clear).rs = s.rs := rfl
@[simp] theorem State.clear_mem (s : State) : (s.clear).mem = [] := rfl
@[simp] theorem State.clear_out (s : State) : (s.clear).out = s.out := rfl
@[simp] theorem State.clear_prompted (s : State) : (s.clear).prompted = s.prompted := rfl
@[simp] theorem State.clear_answers (s : State) : (s.clear).answers = s.answers := rfl
@[simp] theorem State.clear_acks (s : State) : (s.clear).acks = s.acks := rfl
@[simp] theorem State.clear_requests (s : State) : (s.clear).requests = s.requests := rfl

/-! ### Fields after the register reset -/

@[simp] theorem State.resetRegisters_acc (s : State) : (s.resetRegisters).acc = 0 := rfl
@[simp] theorem State.resetRegisters_pc (s : State) : (s.resetRegisters).pc = 0 := rfl
@[simp] theorem State.resetRegisters_ir (s : State) : (s.resetRegisters).ir = 0 := rfl
@[simp] theorem State.resetRegisters_opc (s : State) : (s.resetRegisters).opc = 0 := rfl
@[simp] theorem State.resetRegisters_opd (s : State) : (s.resetRegisters).opd = 0 := rfl
@[simp] theorem State.resetRegisters_ic (s : State) : (s.resetRegisters).ic = 0 := rfl
@[simp] theorem State.resetRegisters_rs (s : State) : (s.resetRegisters).rs = s.rs := rfl
@[simp] theorem State.resetRegisters_mem (s : State) : (s.resetRegisters).mem = s.mem := rfl
@[simp] theorem State.resetRegisters_out (s : State) : (s.resetRegisters).out = s.out := rfl
@[simp] theorem State.resetRegisters_prompted (s : State) : (s.resetRegisters).prompted = s.prompted := rfl
@[simp] theorem State.resetRegisters_answers (s : State) : (s.resetRegisters).answers = s.answers := rfl
@[simp] theorem State.resetRegisters_acks (s : State) : (s.resetRegisters).acks = s.acks := rfl
@[simp] theorem State.resetRegisters_requests (s : State) : (s.resetRegisters).requests = s.requests := rfl

/-! ### Fields after the bulk load -/

@[simp] theorem State.loadImage_acc (p : Parameters) (s : State) (ws : List Int) : (s.loadImage p ws).acc = s.acc := rfl
@[simp] theorem State.loadImage_pc (p : Parameters) (s : State) (ws : List Int) : (s.loadImage p ws).pc = s.pc := rfl
@[simp] theorem State.loadImage_ir (p : Parameters) (s : State) (ws : List Int) : (s.loadImage p ws).ir = s.ir := rfl
@[simp] theorem State.loadImage_opc (p : Parameters) (s : State) (ws : List Int) : (s.loadImage p ws).opc = s.opc := rfl
@[simp] theorem State.loadImage_opd (p : Parameters) (s : State) (ws : List Int) : (s.loadImage p ws).opd = s.opd := rfl
@[simp] theorem State.loadImage_ic (p : Parameters) (s : State) (ws : List Int) : (s.loadImage p ws).ic = s.ic := rfl
@[simp] theorem State.loadImage_rs (p : Parameters) (s : State) (ws : List Int) : (s.loadImage p ws).rs = s.rs := rfl
@[simp] theorem State.loadImage_mem (p : Parameters) (s : State) (ws : List Int) : (s.loadImage p ws).mem = Memory.loadFrom p 0 ws s.mem := rfl
@[simp] theorem State.loadImage_out (p : Parameters) (s : State) (ws : List Int) : (s.loadImage p ws).out = s.out := rfl
@[simp] theorem State.loadImage_prompted (p : Parameters) (s : State) (ws : List Int) : (s.loadImage p ws).prompted = s.prompted := rfl
@[simp] theorem State.loadImage_answers (p : Parameters) (s : State) (ws : List Int) : (s.loadImage p ws).answers = s.answers := rfl
@[simp] theorem State.loadImage_acks (p : Parameters) (s : State) (ws : List Int) : (s.loadImage p ws).acks = s.acks := rfl
@[simp] theorem State.loadImage_requests (p : Parameters) (s : State) (ws : List Int) : (s.loadImage p ws).requests = s.requests := rfl

/-! ### Fields after fetch and decode -/

@[simp] theorem State.fetch_acc (s : State) : (s.fetch).acc = s.acc := rfl
@[simp] theorem State.fetch_pc (s : State) : (s.fetch).pc = s.pc := rfl
@[simp] theorem State.fetch_ir (s : State) : (s.fetch).ir = s.mem.read s.pc := rfl
@[simp] theorem State.fetch_opc (s : State) : (s.fetch).opc = (splitWord (s.mem.read s.pc)).1 := rfl
@[simp] theorem State.fetch_opd (s : State) : (s.fetch).opd = (splitWord (s.mem.read s.pc)).2 := rfl
@[simp] theorem State.fetch_ic (s : State) : (s.fetch).ic = s.ic + 1 := rfl
@[simp] theorem State.fetch_rs (s : State) : (s.fetch).rs = s.rs := rfl
@[simp] theorem State.fetch_mem (s : State) : (s.fetch).mem = s.mem := rfl
@[simp] theorem State.fetch_out (s : State) : (s.fetch).out = s.out := rfl
@[simp] theorem State.fetch_prompted (s : State) : (s.fetch).prompted = s.prompted := rfl
@[simp] theorem State.fetch_answers (s : State) : (s.fetch).answers = s.answers := rfl
@[simp] theorem State.fetch_acks (s : State) : (s.fetch).acks = s.acks := rfl
@[simp] theorem State.fetch_requests (s : State) : (s.fetch).requests = s.requests := rfl

/-! ### Fields after a runtime fault taken (60_exceptions.md R222) -/

@[simp] theorem State.runtimeFault_acc (p : Parameters) (s : State) (c : FaultCause) : (s.runtimeFault p c).acc = s.acc := rfl
@[simp] theorem State.runtimeFault_pc (p : Parameters) (s : State) (c : FaultCause) : (s.runtimeFault p c).pc = s.pc := rfl
@[simp] theorem State.runtimeFault_ir (p : Parameters) (s : State) (c : FaultCause) : (s.runtimeFault p c).ir = s.ir := rfl
@[simp] theorem State.runtimeFault_opc (p : Parameters) (s : State) (c : FaultCause) : (s.runtimeFault p c).opc = s.opc := rfl
@[simp] theorem State.runtimeFault_opd (p : Parameters) (s : State) (c : FaultCause) : (s.runtimeFault p c).opd = s.opd := rfl
@[simp] theorem State.runtimeFault_ic (p : Parameters) (s : State) (c : FaultCause) : (s.runtimeFault p c).ic = s.ic := rfl
@[simp] theorem State.runtimeFault_rs (p : Parameters) (s : State) (c : FaultCause) : (s.runtimeFault p c).rs = .halted (.fault c) := rfl
@[simp] theorem State.runtimeFault_mem (p : Parameters) (s : State) (c : FaultCause) : (s.runtimeFault p c).mem = s.mem := rfl
@[simp] theorem State.runtimeFault_out (p : Parameters) (s : State) (c : FaultCause) :
    (s.runtimeFault p c).out = s.out ++ [.faultReport c s.pc s.ir, .dump (dumpOfUnder p s)] := by
  simp [State.runtimeFault, State.faultAt, State.emit, State.emitDump, State.setRunState, dumpOfUnder]
@[simp] theorem State.runtimeFault_prompted (p : Parameters) (s : State) (c : FaultCause) : (s.runtimeFault p c).prompted = s.prompted := rfl
@[simp] theorem State.runtimeFault_answers (p : Parameters) (s : State) (c : FaultCause) : (s.runtimeFault p c).answers = s.answers := rfl
@[simp] theorem State.runtimeFault_acks (p : Parameters) (s : State) (c : FaultCause) : (s.runtimeFault p c).acks = s.acks := rfl
@[simp] theorem State.runtimeFault_requests (p : Parameters) (s : State) (c : FaultCause) : (s.runtimeFault p c).requests = s.requests := rfl

/-! ### Fields after a load fault taken (70_reset_and_hazards.md R258) -/

@[simp] theorem State.loadFault_acc (p : Parameters) (s : State) (c : FaultCause) : (s.loadFault p c).acc = s.acc := rfl
@[simp] theorem State.loadFault_pc (p : Parameters) (s : State) (c : FaultCause) : (s.loadFault p c).pc = s.pc := rfl
@[simp] theorem State.loadFault_ir (p : Parameters) (s : State) (c : FaultCause) : (s.loadFault p c).ir = s.ir := rfl
@[simp] theorem State.loadFault_opc (p : Parameters) (s : State) (c : FaultCause) : (s.loadFault p c).opc = s.opc := rfl
@[simp] theorem State.loadFault_opd (p : Parameters) (s : State) (c : FaultCause) : (s.loadFault p c).opd = s.opd := rfl
@[simp] theorem State.loadFault_ic (p : Parameters) (s : State) (c : FaultCause) : (s.loadFault p c).ic = s.ic := rfl
@[simp] theorem State.loadFault_rs (p : Parameters) (s : State) (c : FaultCause) : (s.loadFault p c).rs = .halted (.fault c) := rfl
@[simp] theorem State.loadFault_mem (p : Parameters) (s : State) (c : FaultCause) : (s.loadFault p c).mem = s.mem := rfl
@[simp] theorem State.loadFault_out (p : Parameters) (s : State) (c : FaultCause) :
    (s.loadFault p c).out = s.out ++ [.faultReport c s.ic s.ir, .dump (dumpOfUnder p s)] := by
  simp [State.loadFault, State.faultAt, State.emit, State.emitDump, State.setRunState, dumpOfUnder]
@[simp] theorem State.loadFault_prompted (p : Parameters) (s : State) (c : FaultCause) : (s.loadFault p c).prompted = s.prompted := rfl
@[simp] theorem State.loadFault_answers (p : Parameters) (s : State) (c : FaultCause) : (s.loadFault p c).answers = s.answers := rfl
@[simp] theorem State.loadFault_acks (p : Parameters) (s : State) (c : FaultCause) : (s.loadFault p c).acks = s.acks := rfl
@[simp] theorem State.loadFault_requests (p : Parameters) (s : State) (c : FaultCause) : (s.loadFault p c).requests = s.requests := rfl

/-! ### Fields after the run has fallen off the end of memory (40_cycle.md R102) -/

@[simp] theorem State.fallOff_acc (p : Parameters) (s : State) : (s.fallOff p).acc = s.acc := by
  unfold State.fallOff; split <;> rfl
@[simp] theorem State.fallOff_pc (p : Parameters) (s : State) : (s.fallOff p).pc = s.pc := by
  unfold State.fallOff; split <;> rfl
@[simp] theorem State.fallOff_ir (p : Parameters) (s : State) : (s.fallOff p).ir = s.ir := by
  unfold State.fallOff; split <;> rfl
@[simp] theorem State.fallOff_opc (p : Parameters) (s : State) : (s.fallOff p).opc = s.opc := by
  unfold State.fallOff; split <;> rfl
@[simp] theorem State.fallOff_opd (p : Parameters) (s : State) : (s.fallOff p).opd = s.opd := by
  unfold State.fallOff; split <;> rfl
@[simp] theorem State.fallOff_ic (p : Parameters) (s : State) : (s.fallOff p).ic = s.ic := by
  unfold State.fallOff; split <;> rfl
@[simp] theorem State.fallOff_rs (p : Parameters) (s : State) : (s.fallOff p).rs = .halted .fellOff := by
  unfold State.fallOff; split <;> rfl
@[simp] theorem State.fallOff_mem (p : Parameters) (s : State) : (s.fallOff p).mem = s.mem := by
  unfold State.fallOff; split <;> rfl
@[simp] theorem State.fallOff_out (p : Parameters) (s : State) :
    (s.fallOff p).out = s.out ++ (if p.dumpOnFalloff then [.dump (dumpOfUnder p s)] else []) := by
  unfold State.fallOff; split <;> simp [dumpOfUnder]
@[simp] theorem State.fallOff_prompted (p : Parameters) (s : State) : (s.fallOff p).prompted = s.prompted := by
  unfold State.fallOff; split <;> rfl
@[simp] theorem State.fallOff_answers (p : Parameters) (s : State) : (s.fallOff p).answers = s.answers := by
  unfold State.fallOff; split <;> rfl
@[simp] theorem State.fallOff_acks (p : Parameters) (s : State) : (s.fallOff p).acks = s.acks := by
  unfold State.fallOff; split <;> rfl
@[simp] theorem State.fallOff_requests (p : Parameters) (s : State) : (s.fallOff p).requests = s.requests := by
  unfold State.fallOff; split <;> rfl

end Sys2Proof.Machine
end

