-- ==== Sys2Proof/Laws/Ops.lean ====
section
/-! SUPPORT. Each shared operation, said once: everything it can do, under any parameters. This hardware is
`hardware`; the lemmas of the first section say what its parameters are. -/

namespace Sys2Proof.Machine

/-! ### This hardware -/

@[simp] theorem haltCode_eq : haltCode = 50 := rfl

@[simp] theorem hardware_memSize : hardware.memSize = Config.memSize := rfl

@[simp] theorem hardware_opcodes : hardware.opcodes = opcodeAssignment := rfl

@[simp] theorem hardware_dumpOnFalloff : hardware.dumpOnFalloff = Config.dumpOnFalloff := rfl

theorem State.get_eq (s : State) (a : Int) : s.get a = s.getUnder hardware a := rfl

theorem State.put_eq (s : State) (a v : Int) : s.put a v = s.putUnder hardware a v := rfl

theorem dumpOf_eq (s : State) : dumpOf s = dumpOfUnder hardware s := rfl

theorem startRun_eq (q : RunRequest) (s : State) : startRun q s = startRunUnder hardware q s := rfl

/-- The handlers of this hardware are the handlers at its parameters. -/
theorem exec_eq (i : Instr) (s : State) : exec i s = execUnder hardware i s := by cases i <;> rfl

/-- The step of this hardware is the step at its parameters. -/
theorem step_eq (s : State) : step s = stepUnder hardware s :=
  congrArg (fun run => stepWith hardware run s) (funext fun i => funext fun s => exec_eq i s)

/-! ### The dump -/

@[simp] theorem dumpOfUnder_mem_length (p : Parameters) (s : State) :
    (dumpOfUnder p s).mem.length = p.memSize := by
  simp [dumpOfUnder, dumpCells]

/-! ### Get and Put -/

theorem State.get_of_inMemory (p : Parameters) (s : State) (a : Int) (h : InMemoryUnder p a) :
    s.getUnder p a = some (s.mem.read a.toNat) := by
  unfold State.getUnder; exact if_pos h

theorem State.get_of_not_inMemory (p : Parameters) (s : State) (a : Int) (h : ¬InMemoryUnder p a) : s.getUnder p a = none := by
  unfold State.getUnder; exact if_neg h

/-- An operand's bounds, as the handlers meet them. -/
theorem inMemory_natCast (p : Parameters) (a : Nat) : InMemoryUnder p (a : Int) ↔ a < p.memSize := by
  simp [InMemoryUnder]

theorem State.get_natCast (p : Parameters) (s : State) (a : Nat) (h : a < p.memSize) :
    s.getUnder p a = some (s.mem.read a) := by
  simpa using s.get_of_inMemory p a ((inMemory_natCast p a).mpr h)

theorem State.get_natCast_none (p : Parameters) (s : State) (a : Nat) (h : p.memSize ≤ a) : s.getUnder p a = none :=
  s.get_of_not_inMemory p a (fun c => absurd ((inMemory_natCast p a).mp c) (by omega))

theorem State.put_of_inMemory (p : Parameters) (s : State) (a : Int) (v : Int) (h : InMemoryUnder p a) :
    s.putUnder p a v = some { s with mem := s.mem.write a.toNat v } := by
  unfold State.putUnder; exact if_pos h

theorem State.put_of_not_inMemory (p : Parameters) (s : State) (a : Int) (v : Int) (h : ¬InMemoryUnder p a) :
    s.putUnder p a v = none := by
  unfold State.putUnder; exact if_neg h

theorem State.put_natCast (p : Parameters) (s : State) (a : Nat) (v : Int) (h : a < p.memSize) :
    s.putUnder p a v = some { s with mem := s.mem.write a v } := by
  simpa using s.put_of_inMemory p a v ((inMemory_natCast p a).mpr h)

theorem State.put_natCast_none (p : Parameters) (s : State) (a : Nat) (v : Int) (h : p.memSize ≤ a) :
    s.putUnder p a v = none :=
  s.put_of_not_inMemory p a v (fun c => absurd ((inMemory_natCast p a).mp c) (by omega))

/-- Get sees memory only. -/
theorem State.get_congr (p : Parameters) (s t : State) (a : Int) (h : t.mem = s.mem) : t.getUnder p a = s.getUnder p a := by
  simp only [State.getUnder, h]

/-! ### Operand forms -/

theorem withOperand_inMemory (p : Parameters) (s : State) (a : Nat) (go : Int → State) (h : a < p.memSize) :
    withOperand p s a go = go (s.mem.read a) := by
  simp [withOperand, s.get_natCast p a h]

theorem withOperand_outOfRange (p : Parameters) (s : State) (a : Nat) (go : Int → State) (h : p.memSize ≤ a) :
    withOperand p s a go = s.runtimeFault p (.outOfRange a) := by
  simp [withOperand, s.get_natCast_none p a h]

/-- Everything `withOperand` can do. -/
theorem withOperand_cases (p : Parameters) (s : State) (a : Nat) (go : Int → State) :
    (a < p.memSize ∧ withOperand p s a go = go (s.mem.read a)) ∨
    (p.memSize ≤ a ∧ withOperand p s a go = s.runtimeFault p (.outOfRange a)) := by
  rcases Nat.lt_or_ge a p.memSize with h | h
  · exact .inl ⟨h, withOperand_inMemory p s a go h⟩
  · exact .inr ⟨h, withOperand_outOfRange p s a go h⟩

/-- Everything `withStored` can do. -/
theorem withStored_cases (p : Parameters) (s : State) (a : Int) (v : Int) (go : State → State) :
    (InMemoryUnder p a ∧ withStored p s a v go = go { s with mem := s.mem.write a.toNat v }) ∨
    (¬InMemoryUnder p a ∧ withStored p s a v go = s.runtimeFault p (.outOfRange a)) := by
  by_cases h : InMemoryUnder p a
  · exact .inl ⟨h, by simp [withStored, s.put_of_inMemory p a v h]⟩
  · exact .inr ⟨h, by simp [withStored, s.put_of_not_inMemory p a v h]⟩

/-- Everything `withResult` can do. -/
theorem withResult_cases (p : Parameters) (s : State) (r : Int) :
    (IsWord r ∧ withResult p s r = (s.setAcc r).advance) ∨
    (¬IsWord r ∧ withResult p s r = s.runtimeFault p .overflow) := by
  by_cases h : IsWord r
  · exact .inl ⟨h, if_pos h⟩
  · exact .inr ⟨h, if_neg h⟩

/-- Everything a READ can do with the console's integer. -/
theorem finishRead_cases (p : Parameters) (a : Int) (v : Int) (s : State) :
    (IsWord v ∧ InMemoryUnder p a ∧
      finishRead p a v s = ({ s with mem := s.mem.write a.toNat v } : State).advance) ∨
    (IsWord v ∧ ¬InMemoryUnder p a ∧ finishRead p a v s = s.runtimeFault p (.outOfRange a)) ∨
    (¬IsWord v ∧ finishRead p a v s = s.runtimeFault p .inputRange) := by
  by_cases h : IsWord v
  · rcases withStored_cases p s a v State.advance with ⟨ha, e⟩ | ⟨ha, e⟩
    · exact .inl ⟨h, ha, (if_pos h).trans e⟩
    · exact .inr (.inl ⟨h, ha, (if_pos h).trans e⟩)
  · exact .inr (.inr ⟨h, if_neg h⟩)

/-- Everything the entry of one console integer can do (70_reset_and_hazards.md R256 to R258). -/
theorem enterValue_cases (p : Parameters) (v : Int) (s : State) :
    (v = Config.entrySentinel ∧ enterValue p v s = s.setRunState .executing) ∨
    (v ≠ Config.entrySentinel ∧ IsWord v ∧ s.ic < p.memSize ∧
      enterValue p v s = { s with mem := s.mem.write s.ic v, ic := s.ic + 1 }) ∨
    (v ≠ Config.entrySentinel ∧ IsWord v ∧ p.memSize ≤ s.ic ∧
      enterValue p v s = s.loadFault p (.outOfRange s.ic)) ∨
    (v ≠ Config.entrySentinel ∧ ¬IsWord v ∧ enterValue p v s = s.loadFault p .inputRange) := by
  by_cases h : v = Config.entrySentinel
  · exact .inl ⟨h, if_pos h⟩
  by_cases hw : IsWord v
  · rcases Nat.lt_or_ge s.ic p.memSize with hi | hi
    · exact .inr (.inl ⟨h, hw, hi, by simp [enterValue, h, hw, s.put_natCast p s.ic v hi]⟩)
    · exact .inr (.inr (.inl ⟨h, hw, hi, by simp [enterValue, h, hw, s.put_natCast_none p s.ic v hi]⟩))
  · exact .inr (.inr (.inr ⟨h, hw, by simp only [enterValue, h, hw, if_false]⟩))

/-- What both entry operations start from (70_reset_and_hazards.md R252, R253). -/
theorem State.fresh_eq (s : State) :
    s.fresh = { State.reset with
      rs := s.rs, out := s.out, answers := s.answers, acks := s.acks, requests := s.requests } := rfl

/-- Everything a requested run can do on a free machine. -/
theorem beginRun_cases (p : Parameters) (q : RunRequest) (s : State) :
    (q = .entry ∧ beginRun p q s = .next s.runEntry) ∨
    (∃ img, q = .image img ∧ firstNonWord img.words = none ∧ beginRun p q s = .next (s.runImage p img)) ∨
    (∃ img v, q = .image img ∧ firstNonWord img.words = some v ∧
      beginRun p q s = .refused (.imageWord v)) := by
  cases q with
  | entry => exact .inl ⟨rfl, rfl⟩
  | image img =>
    cases h : firstNonWord img.words with
    | none => exact .inr (.inl ⟨img, rfl, h, by simp [beginRun, h]⟩)
    | some v => exact .inr (.inr ⟨img, v, rfl, h, by simp [beginRun, h]⟩)

/-! ### One step, by run state -/

section Step

variable (p : Parameters) (run : Instr → State → Result) (s : State)

theorem stepWith_idle (h : s.rs = .idle) : stepWith p run s = restStep p s := by simp [stepWith, h]

theorem stepWith_halted (r : HaltReason) (h : s.rs = .halted r) :
    stepWith p run s = restStep p s := by simp [stepWith, h]

theorem stepWith_loading (h : s.rs = .loading) : stepWith p run s = entryStep p s := by
  simp [stepWith, h]

theorem stepWith_paused (h : s.rs = .paused) : stepWith p run s = pausedStep p s := by
  simp [stepWith, h]

theorem stepWith_resume (h : s.rs = .executing) (hp : s.prompted = true) :
    stepWith p run s = resumeRead p s := by simp [stepWith, h, hp]

theorem stepWith_cycle (h : s.rs = .executing) (hp : s.prompted = false) :
    stepWith p run s = cycle p run s := by simp [stepWith, h, hp]

/-- Everything a cycle can do (40_cycle.md R101): fall off, fault at decode, or run the instruction. -/
theorem cycle_cases :
    (s.LoopEnds p ∧ cycle p run s = .next (s.fallOff p)) ∨
    (¬s.LoopEnds p ∧ p.opcodes.decode (s.mem.read s.pc) = .illegalOpcode ∧
      cycle p run s = .next (s.fetch.runtimeFault p .illegalOpcode)) ∨
    (∃ i, ¬s.LoopEnds p ∧ p.opcodes.decode (s.mem.read s.pc) = .instr i ∧
      cycle p run s = run i s.fetch) := by
  by_cases h : s.LoopEnds p
  · exact .inl ⟨h, if_pos h⟩
  · have e : cycle p run s = dispatchFetched p run s.fetch := if_neg h
    cases hd : p.opcodes.decode (s.mem.read s.pc) with
    | illegalOpcode =>
      exact .inr (.inl ⟨h, rfl, by rw [e]; simp only [dispatchFetched, State.fetch_ir, hd]⟩)
    | instr i =>
      exact .inr (.inr ⟨i, h, rfl, by rw [e]; simp only [dispatchFetched, State.fetch_ir, hd]⟩)

end Step

end Sys2Proof.Machine
end

