-- ==== Sys2Proof/Laws/Exec.lean ====
section
/-! SUPPORT. The inversion of `exec`: an instruction ends in a fault of its own, or has its effect. Every
statement about what an instruction leaves alone follows from these cases. -/

namespace Sys2Proof.Machine

/-- The state in which an instruction's fault is taken: READ has printed its prompt and consumed its
integer by then (60_exceptions.md R224), every other instruction has done nothing. -/
def faultBase : Instr → State → State
  | .read _, s => (s.emit .readPrompt).takeAnswer s.answers.tail
  | _, s => s

/-- The effect of an instruction that raises no fault. -/
def Effect (p : Parameters) : Instr → State → State → Prop
  | .read a, s, t =>
    (s.answers = [] ∧ t = (s.emit .readPrompt).hold) ∨
    (∃ v rest, s.answers = v :: rest ∧ IsWord v ∧ a < p.memSize ∧
      t = ({ (s.emit .readPrompt).takeAnswer rest with mem := s.mem.write a v } : State).advance)
  | .write a, s, t =>
    a < p.memSize ∧ t = (s.emit (.written (s.mem.read a))).advance
  | .load a, s, t => a < p.memSize ∧ t = (s.setAcc (s.mem.read a)).advance
  | .store a, s, t =>
    a < p.memSize ∧ t = (({ s with mem := s.mem.write a s.acc } : State).setAcc 0).advance
  | .add a, s, t =>
    a < p.memSize ∧ IsWord (s.acc + s.mem.read a) ∧ t = (s.setAcc (s.acc + s.mem.read a)).advance
  | .subtract a, s, t =>
    a < p.memSize ∧ IsWord (s.acc - s.mem.read a) ∧ t = (s.setAcc (s.acc - s.mem.read a)).advance
  | .divide a, s, t =>
    a < p.memSize ∧ s.mem.read a ≠ 0 ∧ t = (s.setAcc (s.acc.tdiv (s.mem.read a))).advance
  | .multiply a, s, t =>
    a < p.memSize ∧ IsWord (s.acc * s.mem.read a) ∧ t = (s.setAcc (s.acc * s.mem.read a)).advance
  | .branch n, s, t => t = s.jump n
  | .branchNeg n, s, t => (s.acc < 0 ∧ t = s.jump n) ∨ (0 ≤ s.acc ∧ t = s.advance)
  | .branchZero n, s, t => (s.acc = 0 ∧ t = s.jump n) ∨ (s.acc ≠ 0 ∧ t = s.advance)
  | .halt _, s, t => t = (s.advance.setRunState (.halted .halt)).emitDump p
  | .pause _, s, t =>
    (s.acks = [] ∧ t = (s.setRunState .paused).emit .pausePrompt) ∨
    (∃ w rest, s.acks = w :: rest ∧
      t = acknowledge p w (((s.setRunState .paused).emit .pausePrompt).takeAck rest))

/-- An instruction that reads its operand: its fault, or on with the word. -/
theorem withOperand_eq (p : Parameters) (s t : State) (a : Nat) (go : Int → State) (h : withOperand p s a go = t) :
    (∃ c, t = s.runtimeFault p c) ∨ (a < p.memSize ∧ t = go (s.mem.read a)) := by
  rcases withOperand_cases p s a go with ⟨ha, e⟩ | ⟨_, e⟩
  · exact .inr ⟨ha, h.symm.trans e⟩
  · exact .inl ⟨_, h.symm.trans e⟩

/-- An arithmetic instruction with its range check: a fault, or the exact result. -/
theorem withOperand_withResult (p : Parameters) (s t : State) (a : Nat) (r : Int → Int)
    (h : withOperand p s a (fun m => withResult p s (r m)) = t) :
    (∃ c, t = s.runtimeFault p c) ∨
    (a < p.memSize ∧ IsWord (r (s.mem.read a)) ∧ t = (s.setAcc (r (s.mem.read a))).advance) := by
  rcases withOperand_eq p s t a _ h with hf | ⟨ha, e⟩
  · exact .inl hf
  rcases withResult_cases p s (r (s.mem.read a)) with ⟨hw, e'⟩ | ⟨_, e'⟩
  · exact .inr ⟨ha, hw, e.trans e'⟩
  · exact .inl ⟨_, e.trans e'⟩

/-- Everything an instruction can do: its fault, in the state `faultBase` says, or its effect. -/
theorem execUnder_cases (p : Parameters) (i : Instr) (s t : State) (h : execUnder p i s = .next t) :
    (∃ c, t = (faultBase i s).runtimeFault p c) ∨ Effect p i s t := by
  cases i with
  | read a =>
    simp only [execUnder, execReadUnder] at h
    split at h <;> injection h with h
    · next ha => exact .inr (.inl ⟨ha, h.symm⟩)
    · next v rest ha =>
      have hb : faultBase (.read a) s = (s.emit .readPrompt).takeAnswer rest := by
        simp [faultBase, ha]
      rcases finishRead_cases p a v ((s.emit .readPrompt).takeAnswer rest) with
        ⟨hw, hi, e⟩ | ⟨_, _, e⟩ | ⟨_, e⟩
      · refine .inr (.inr ⟨v, rest, ha, hw, (inMemory_natCast p a).mp hi, ?_⟩)
        rw [← h, e]
        rfl
      · exact .inl ⟨_, hb ▸ h.symm.trans e⟩
      · exact .inl ⟨_, hb ▸ h.symm.trans e⟩
  | write a => injection h with h; exact withOperand_eq p s t a _ h
  | load a => injection h with h; exact withOperand_eq p s t a _ h
  | store a =>
    injection h with h
    rcases withStored_cases p s a s.acc (fun t => (t.setAcc 0).advance) with ⟨ha, e⟩ | ⟨_, e⟩
    · exact .inr ⟨(inMemory_natCast p a).mp ha, h.symm.trans e⟩
    · exact .inl ⟨_, h.symm.trans e⟩
  | add a => injection h with h; exact withOperand_withResult p s t a (s.acc + ·) h
  | subtract a => injection h with h; exact withOperand_withResult p s t a (s.acc - ·) h
  | divide a =>
    injection h with h
    rcases withOperand_eq p s t a _ h with hf | ⟨ha, e⟩
    · exact .inl hf
    by_cases hz : s.mem.read a = 0
    · exact .inl ⟨_, e.trans (if_pos hz)⟩
    · exact .inr ⟨ha, hz, e.trans (if_neg hz)⟩
  | multiply a => injection h with h; exact withOperand_withResult p s t a (s.acc * ·) h
  | branch n => injection h with h; exact .inr h.symm
  | branchNeg n =>
    simp only [execUnder, execBranchNeg, State.branchIf, State.accNegative, decide_eq_true_eq] at h
    injection h with h
    split at h
    · next hc => exact .inr (.inl ⟨hc, h.symm⟩)
    · next hc => exact .inr (.inr ⟨by omega, h.symm⟩)
  | branchZero n =>
    simp only [execUnder, execBranchZero, State.branchIf, State.accZero, decide_eq_true_eq] at h
    injection h with h
    split at h
    · next hc => exact .inr (.inl ⟨hc, h.symm⟩)
    · next hc => exact .inr (.inr ⟨hc, h.symm⟩)
  | halt x => injection h with h; exact .inr h.symm
  | pause x =>
    simp only [execUnder, execPauseUnder] at h
    split at h <;> injection h with h
    · next ha => exact .inr (.inl ⟨ha, h.symm⟩)
    · next w rest ha => exact .inr (.inr ⟨w, rest, ha, h.symm⟩)

/-- The same on this hardware. -/
theorem exec_cases (i : Instr) (s t : State) (h : exec i s = .next t) :
    (∃ c, t = (faultBase i s).runtimeFault hardware c) ∨ Effect hardware i s t :=
  execUnder_cases hardware i s t ((exec_eq i s).symm.trans h)

end Sys2Proof.Machine
end

