-- ==== Sys2Proof/Laws/PerInstr.lean ====
section
/-! SUPPORT. One statement per instruction as syntax: the word of a well-formed instruction is a positive
Word (30_encoding.md R71: an instruction word is never negative). -/

namespace Sys2Proof.Laws.EncodedWord

/-- The word of a well-formed instruction is a positive Word. -/
def Statement (i : Instr) : Prop := i.WellFormed → 0 < encode i ∧ IsWord (encode i)

/-- The shape all thirteen share: an opcode of 10 to 51 before a two-digit operand. -/
theorem of_code (i : Instr) (h : 10 ≤ codeOf i.op ∧ codeOf i.op ≤ 51) : Statement i := by
  intro hw
  simp only [Instr.WellFormed, Config.operandMax] at hw
  simp only [encode_eq, IsWord, Config.wordMax]
  omega

theorem read (a : Nat) : Statement (.read a) := of_code _ (by simp only [Instr.op]; decide)
theorem write (a : Nat) : Statement (.write a) := of_code _ (by simp only [Instr.op]; decide)
theorem load (a : Nat) : Statement (.load a) := of_code _ (by simp only [Instr.op]; decide)
theorem store (a : Nat) : Statement (.store a) := of_code _ (by simp only [Instr.op]; decide)
theorem add (a : Nat) : Statement (.add a) := of_code _ (by simp only [Instr.op]; decide)
theorem subtract (a : Nat) : Statement (.subtract a) := of_code _ (by simp only [Instr.op]; decide)
theorem divide (a : Nat) : Statement (.divide a) := of_code _ (by simp only [Instr.op]; decide)
theorem multiply (a : Nat) : Statement (.multiply a) := of_code _ (by simp only [Instr.op]; decide)
theorem branch (t : Nat) : Statement (.branch t) := of_code _ (by simp only [Instr.op]; decide)
theorem branchNeg (t : Nat) : Statement (.branchNeg t) := of_code _ (by simp only [Instr.op]; decide)
theorem branchZero (t : Nat) : Statement (.branchZero t) := of_code _ (by simp only [Instr.op]; decide)
theorem halt (x : Nat) : Statement (.halt x) := of_code _ (by simp only [Instr.op]; decide)
theorem pause (x : Nat) : Statement (.pause x) := of_code _ (by simp only [Instr.op]; decide)

end Sys2Proof.Laws.EncodedWord
end

