-- ==== Sys2Proof/Laws/Step.lean ====
section
/-! SUPPORT. The inversion of a step under any parameters: which of its eleven kinds it is. Every
statement about all steps follows from these cases and `exec_cases`. -/

namespace Sys2Proof.Machine

/-- What one step can be (40_cycle.md R100), under the parameters and with the handlers `run`. -/
inductive StepKind (p : Parameters) (run : Instr → State → Result) (s : State) : State → Prop where
  /-- Idle or Halted, no request: nothing changes -/
  | rest (h : s.rs = .idle ∨ ∃ r, s.rs = .halted r) : StepKind p run s s
  /-- Idle or Halted, a request: `Run()` -/
  | runEntry (h : s.rs = .idle ∨ ∃ r, s.rs = .halted r) (rest : List RunRequest)
      (hq : s.requests = .entry :: rest) :
      StepKind p run s ({ s with requests := rest } : State).runEntry
  /-- Idle or Halted, a request: `Run(image)` with Words only -/
  | runImage (h : s.rs = .idle ∨ ∃ r, s.rs = .halted r) (img : Image) (rest : List RunRequest)
      (hq : s.requests = .image img :: rest) (hw : firstNonWord img.words = none) :
      StepKind p run s (({ s with requests := rest } : State).runImage p img)
  /-- Loading, no answer -/
  | entryHold (h : s.rs = .loading) (ha : s.answers = []) : StepKind p run s s.promptEntry.hold
  /-- Loading, an answer -/
  | entryValue (h : s.rs = .loading) (v : Int) (rest : List Int) (ha : s.answers = v :: rest) :
      StepKind p run s (enterValue p v (s.promptEntry.takeAnswer rest))
  /-- Paused, or a READ that holds, with no answer: nothing changes -/
  | wait (h : (s.rs = .paused ∧ s.acks = []) ∨
      (s.rs = .executing ∧ s.prompted = true ∧ s.answers = [])) : StepKind p run s s
  /-- Paused, an acknowledgment -/
  | acknowledged (h : s.rs = .paused) (w : Bool) (rest : List Bool) (ha : s.acks = w :: rest) :
      StepKind p run s (acknowledge p w (s.takeAck rest))
  /-- a READ that holds, an answer -/
  | readAnswered (h : s.rs = .executing) (hp : s.prompted = true) (v : Int) (rest : List Int)
      (ha : s.answers = v :: rest) : StepKind p run s (finishRead p s.opd v (s.takeAnswer rest))
  /-- the loop test fails -/
  | fellOff (h : s.rs = .executing) (hp : s.prompted = false) (hl : s.LoopEnds p) : StepKind p run s (s.fallOff p)
  /-- an illegal word -/
  | illegal (h : s.rs = .executing) (hp : s.prompted = false) (hl : ¬s.LoopEnds p)
      (hd : p.opcodes.decode (s.mem.read s.pc) = .illegalOpcode) :
      StepKind p run s (s.fetch.runtimeFault p .illegalOpcode)
  /-- an instruction -/
  | ran (h : s.rs = .executing) (hp : s.prompted = false) (hl : ¬s.LoopEnds p) (i : Instr) (t : State)
      (hd : p.opcodes.decode (s.mem.read s.pc) = .instr i) (hx : run i s.fetch = .next t) : StepKind p run s t

/-- A free machine's step. -/
theorem restStep_cases (p : Parameters) (run : Instr → State → Result) (s t : State) (hf : s.rs = .idle ∨ ∃ r, s.rs = .halted r)
    (h : restStep p s = .next t) : StepKind p run s t := by
  unfold restStep at h
  split at h
  · injection h with h; exact h ▸ .rest hf
  · next q rest hq =>
    have e : startRunUnder p q { s with requests := rest } = beginRun p q { s with requests := rest } := by
      rcases hf with hf | ⟨r, hf⟩ <;> simp [startRunUnder, hf]
    rw [e] at h
    rcases beginRun_cases p q { s with requests := rest } with
      ⟨rfl, e⟩ | ⟨img, rfl, hw, e⟩ | ⟨img, v, rfl, _, e⟩ <;> rw [e] at h
    · injection h with h; exact h ▸ .runEntry hf rest hq
    · injection h with h; exact h ▸ .runImage hf img rest hq hw
    · cases h

/-- Everything one step can do. -/
theorem stepWith_cases (p : Parameters) (run : Instr → State → Result) (s t : State)
    (h : stepWith p run s = .next t) : StepKind p run s t := by
  unfold stepWith at h
  split at h
  · next hr => exact restStep_cases p run s t (.inl hr) h
  · next r hr => exact restStep_cases p run s t (.inr ⟨r, hr⟩) h
  · next hr =>
    unfold entryStep at h
    split at h <;> injection h with h
    · next ha => exact h ▸ .entryHold hr ha
    · next v rest ha => exact h ▸ .entryValue hr v rest ha
  · next hr =>
    unfold pausedStep at h
    split at h <;> injection h with h
    · next ha => exact h ▸ .wait (.inl ⟨hr, ha⟩)
    · next w rest ha => exact h ▸ .acknowledged hr w rest ha
  · next hr =>
    cases hp : s.prompted with
    | true =>
      simp only [hp, if_true] at h
      unfold resumeRead at h
      split at h <;> injection h with h
      · next ha => exact h ▸ .wait (.inr ⟨hr, hp, ha⟩)
      · next v rest ha => exact h ▸ .readAnswered hr hp v rest ha
    | false =>
      simp only [hp, Bool.false_eq_true, if_false] at h
      rcases cycle_cases p run s with ⟨hl, e⟩ | ⟨hl, hd, e⟩ | ⟨i, hl, hd, e⟩ <;> rw [e] at h
      · injection h with h; exact h ▸ .fellOff hr hp hl
      · injection h with h; exact h ▸ .illegal hr hp hl hd
      · exact .ran hr hp hl i t hd h

/-- Everything one step under any parameters can do. -/
theorem stepUnder_cases (p : Parameters) (s t : State) (h : stepUnder p s = .next t) :
    StepKind p (execUnder p) s t := stepWith_cases p (execUnder p) s t h

/-- Everything one step of this hardware can do. -/
theorem step_cases (s t : State) (h : step s = .next t) : StepKind hardware exec s t :=
  stepWith_cases hardware exec s t h

end Sys2Proof.Machine
end

