-- ==== Sys2Proof/Tests/Slice0.lean ====
section
/-! SUPPORT. The model's own tests: decoding of words written out by hand, worked vectors of
95_test_vectors.md, and a witness for every statement that has hypotheses. -/

namespace Sys2Proof.Tests

open Sys2Proof Sys2Proof.Machine Sys2Proof.Claims

/-! ### Helpers -/

/-- A core about to run the instruction at `pc`. -/
def running (pc : Nat) (mem : Memory) (acc : Int) : State :=
  { State.reset with rs := .executing, pc := pc, mem := mem, acc := acc }

/-- A core in interactive entry with the console's answers. -/
def entering (ic : Nat) (answers : List Int) : State :=
  { State.reset with rs := .loading, ic := ic, answers := answers }

/-- One field, or several, of the state a step or an instruction answers. -/
def after {α : Type} (r : Result) (f : State → α) : Option α :=
  match r with
  | .next t => some (f t)
  | .fault _ => none
  | .refused _ => none

/-- The events of a history but for the content of its dumps. -/
def printed (t : State) : List OutEvent :=
  t.out.map (fun e => match e with | .dump _ => .dump ⟨0, 0, 0, 0, 0, []⟩ | e => e)

/-- What `printed` shows of a dump. -/
def someDump : OutEvent := .dump ⟨0, 0, 0, 0, 0, []⟩

/-- Another assignment that keeps the decades: MULTIPLY 32 and DIVIDE 33, HALT 51 and PAUSE 50. -/
def otherAssignment : OpcodeAssignment where
  code
    | .multiply => 32
    | .divide => 33
    | .halt => 51
    | .pause => 50
    | op => codeOf op
  inSet op := by cases op <;> decide
  keepsDecade op := by cases op <;> decide
  injective a b h := by cases a <;> cases b <;> first | rfl | exact absurd h (by decide)

/-- This hardware with N = 50, the size the vectors of 95_test_vectors.md use. -/
def fifty : Parameters := { hardware with memSize := 50, memSize_pos := by decide }

/-- Two words of memory, another assignment, and a dump at the end of memory. -/
def tiny : Parameters where
  memSize := 2
  memSize_pos := by decide
  opcodes := otherAssignment
  dumpOnFalloff := true

/-! ### WellFormed -/

/-- Operand 99 is the last that fits (30_encoding.md R73). -/
theorem test_wellFormed_accepts_99 : (Instr.add 99).WellFormed := by decide

/-- Operand 100 does not fit (30_encoding.md R73). -/
theorem test_wellFormed_refuses_100 : ¬(Instr.add 100).WellFormed ∧ ¬(Instr.halt 100).WellFormed := by
  decide

/-! ### Decoding: words from the digits of 30_encoding.md R71 with the numbers of R80 -/

theorem test_decode_read : decode 1099 = .instr (.read 99) := by decide
theorem test_decode_write : decode 1100 = .instr (.write 0) := by decide
theorem test_decode_load : decode 2007 = .instr (.load 7) := by decide
theorem test_decode_store : decode 2199 = .instr (.store 99) := by decide
theorem test_decode_add : decode 3000 = .instr (.add 0) := by decide
theorem test_decode_subtract : decode 3198 = .instr (.subtract 98) := by decide
theorem test_decode_divide : decode 3206 = .instr (.divide 6) := by decide
theorem test_decode_multiply : decode 3399 = .instr (.multiply 99) := by decide
theorem test_decode_branch : decode 4099 = .instr (.branch 99) := by decide
theorem test_decode_branchNeg : decode 4102 = .instr (.branchNeg 2) := by decide
theorem test_decode_branchZero : decode 4299 = .instr (.branchZero 99) := by decide
theorem test_decode_halt : decode 5000 = .instr (.halt 0) := by decide
theorem test_decode_pause : decode 5199 = .instr (.pause 99) := by decide

/-- 95_test_vectors.md section 2.1: the words at the edges of the ranges, 0 and negative words. -/
theorem test_decode_illegal :
    [0, 999, 1200, 1999, 2200, 3400, 4300, 5200, 9999, -1, -1007, -2105, -9999].all
      (fun w => decode w == .illegalOpcode) = true := by decide

/-- Words under another assignment that 30_encoding.md R80 allows. -/
theorem test_decode_other_assignment :
    otherAssignment.decode 3206 = .instr (.multiply 6) ∧
      otherAssignment.decode 5100 = .instr (.halt 0) ∧ otherAssignment.encode (.divide 6) = 3306 := by
  decide

/-- Under another assignment HALT is 51, and the number 50 is PAUSE and goes on (40_cycle.md R101). -/
theorem test_step_other_assignment :
    after (stepUnder tiny (running 0 [(0, 5100)] 0)) State.rs = some (.halted .halt) ∧
      after (stepUnder tiny (running 0 [(0, 5000)] 0)) State.rs = some .paused := by decide

/-- 95_test_vectors.md sections 2.3, 2.4, 2.9: the rows with N = 50. -/
theorem test_fifty_words :
    after (stepUnder fifty (running 0 [(0, 1160)] 0)) printed =
        some [.faultReport (.outOfRange 60) 0 1160, someDump] ∧
      after (stepUnder fifty { running 0 [(0, 1060)] 0 with answers := [10000] }) State.rs =
        some (.halted (.fault .inputRange)) ∧
      after (stepUnder fifty { running 0 [(0, 1060)] 0 with answers := [5] }) State.rs =
        some (.halted (.fault (.outOfRange 60))) ∧
      after (stepUnder fifty (running 0 [(0, 2160)] 17)) (fun t => (t.rs, t.acc)) =
        some (.halted (.fault (.outOfRange 60)), 17) ∧
      after (stepUnder fifty (running 0 [(0, 3260)] 17)) State.rs =
        some (.halted (.fault (.outOfRange 60))) := by decide

/-- 95_test_vectors.md section 2.6: BRANCH 60 with N = 50, and the loop test after it. -/
theorem test_fifty_words_branch :
    after (stepUnder fifty (running 9 [(9, 4060)] 0)) (fun t => (t.pc, t.rs)) =
        some (60, .executing) ∧
      after (stepUnder { fifty with dumpOnFalloff := false } (running 60 [] 0))
        (fun t => (t.rs, t.out)) = some (.halted .fellOff, []) := by decide

/-- 95_test_vectors.md section 2.10: the third word entered with N = 2; and the end of memory with the
dump asked for. -/
theorem test_two_words :
    after (stepUnder tiny (entering 1 [5000])) (fun t => (t.rs, t.mem)) =
        some (.loading, [(1, 5000)]) ∧
      after (stepUnder tiny (entering 2 [5000])) State.rs =
        some (.halted (.fault (.outOfRange 2))) ∧
      after (stepUnder tiny (running 2 [] 0)) printed = some [someDump] := by decide

/-- 95_test_vectors.md section 2.1: the codec on negative words. -/
theorem test_split_negative : splitWord (-2105) = (-21, -5) ∧ splitWord (-5) = (0, -5) := by decide

/-- 95_test_vectors.md section 2.1: IsValidWord. -/
theorem test_isValidWord :
    isValidWord 0 = true ∧ isValidWord 1 = false ∧ isValidWord 1000 = true ∧
      isValidWord 1200 = false ∧ isValidWord (-1007) = false := by decide

/-- The host's reading of a table row (30_encoding.md R95). -/
theorem test_decodeTableWord :
    decodeTableWord 0 2100 = some (.store 0) ∧ decodeTableWord 0 1200 = none := by decide

/-- An instruction placed by `withFetchWord` is the first that runs after reset. -/
theorem test_withFetchWord :
    after (step (State.reset.withFetchWord 0 5000)) (fun t => (t.rs, t.ir)) =
      some (.halted .halt, 5000) := by decide

/-! ### Instructions: vectors of 95_test_vectors.md sections 2.3 to 2.7 -/

theorem test_read_stores :
    after (step { running 0 [(0, 1007)] 5 with answers := [3, 8] })
      (fun t => (t.get 7, t.pc, t.acc, t.answers, t.out)) =
      some (some 3, 1, 5, [8], [.readPrompt]) := by decide

theorem test_read_range :
    after (step { running 0 [(0, 1007)] 0 with answers := [-99999] })
      (fun t => (t.rs, t.get 7, t.pc, printed t)) =
      some (.halted (.fault .inputRange), some 0, 0,
        [.readPrompt, .faultReport .inputRange 0 1007, someDump]) := by decide

theorem test_write_own_word :
    after (step (running 5 [(5, 1105)] 0)) (fun t => (t.pc, t.out)) =
      some (6, [.written 1105]) := by decide

theorem test_load_negative :
    after (step (running 0 [(0, 2009), (9, -42)] 5)) (fun t => (t.acc, t.get 9, t.pc)) =
      some (-42, some (-42), 1) := by decide

theorem test_store_clears_acc :
    after (step (running 0 [(0, 2109)] 17)) (fun t => (t.get 9, t.acc, t.pc)) =
      some (some 17, 0, 1) := by decide

theorem test_store_over_itself :
    after (step (running 3 [(3, 2103)] 5000)) (fun t => (t.get 3, t.acc, t.pc)) =
      some (some 5000, 0, 4) := by decide

theorem test_add_exact :
    after (step (running 0 [(0, 3008), (8, -4999)] (-5000))) (fun t => (t.acc, t.pc)) =
      some (-9999, 1) := by decide

theorem test_add_overflow :
    after (step (running 0 [(0, 3008), (8, 1)] 9999)) (fun t => (t.rs, t.acc, t.pc)) =
      some (.halted (.fault .overflow), 9999, 0) := by decide

theorem test_subtract_exact :
    after (step (running 0 [(0, 3105), (5, -9999)] 0)) (fun t => (t.acc, t.pc)) =
      some (9999, 1) := by decide

theorem test_subtract_overflow :
    after (step (running 0 [(0, 3105), (5, 1)] (-9999))) (fun t => (t.rs, t.acc)) =
      some (.halted (.fault .overflow), -9999) := by decide

theorem test_divide_truncates :
    after (step (running 0 [(0, 3206), (6, 2)] (-7))) (fun t => (t.acc, t.pc)) =
      some (-3, 1) := by decide

theorem test_divide_zero_by_zero :
    after (step (running 3 [(3, 3208)] 0)) (fun t => (t.rs, t.pc, t.ic)) =
      some (.halted (.fault .divideByZero), 3, 1) := by decide

theorem test_multiply_exact :
    after (step (running 0 [(0, 3304), (4, 101)] 99)) (fun t => (t.acc, t.pc)) =
      some (9999, 1) := by decide

theorem test_multiply_overflow :
    after (step (running 0 [(0, 3304), (4, 100)] (-100))) (fun t => (t.rs, t.acc)) =
      some (.halted (.fault .overflow), -100) := by decide

theorem test_branch_no_plus_one :
    after (step (running 9 [(9, 4002)] 1)) (fun t => (t.pc, t.acc)) = some (2, 1) := by decide

theorem test_branchNeg_zero_not_taken :
    after (step (running 9 [(9, 4120)] 0)) State.pc = some 10 := by decide

theorem test_branchNeg_taken :
    after (step (running 9 [(9, 4120)] (-5))) State.pc = some 20 := by decide

theorem test_branchZero_taken :
    after (step (running 9 [(9, 4220)] 0)) State.pc = some 20 := by decide

theorem test_branchZero_not_taken :
    after (step (running 9 [(9, 4220)] (-1))) State.pc = some 10 := by decide

theorem test_halt_dumps :
    after (step { running 6 [(6, 5037)] 0 with ic := 6 })
      (fun t => (t.rs, t.pc, t.ic, t.opd, printed t)) =
      some (.halted .halt, 7, 7, 37, [someDump]) := by decide

theorem test_pause_acknowledged :
    after (step { running 3 [(3, 5100)] 12 with acks := [true] })
      (fun t => (t.rs, t.pc, t.acks, printed t)) =
      some (.executing, 4, [], [.pausePrompt, someDump]) := by decide

theorem test_pause_waits :
    after (step (running 3 [(3, 5100)] 12)) (fun t => (t.rs, t.pc, t.out)) =
      some (.paused, 3, [.pausePrompt]) := by decide

/-! ### The cycle, entry and runs: sections 2.2 and 2.10 -/

theorem test_cycle_illegal_zero :
    after (step (running 0 [] 0)) (fun t => (t.rs, t.pc, t.ic, printed t)) =
      some (.halted (.fault .illegalOpcode), 0, 1,
        [.faultReport .illegalOpcode 0 0, someDump]) := by decide

theorem test_cycle_illegal_negative :
    after (step (running 0 [(0, -1007)] 0)) (fun t => (t.ir, t.opc, t.opd)) =
      some (-1007, -10, -7) := by decide

theorem test_entry_sentinel :
    after (step (entering 3 [-99999, 42])) (fun t => (t.rs, t.pc, t.ic, t.answers, t.out)) =
      some (.executing, 0, 3, [42], [.entryPrompt 3]) := by decide

theorem test_entry_range :
    after (step (entering 1 [10000])) (fun t => (t.rs, t.ic, printed t)) =
      some (.halted (.fault .inputRange), 1,
        [.entryPrompt 1, .faultReport .inputRange 1 0, someDump]) := by decide

theorem test_entry_full :
    after (step (entering 100 [5000])) (fun t => (t.rs, t.get 99)) =
      some (.halted (.fault (.outOfRange 100)), some 0) := by decide

theorem test_run_image :
    after (step { State.reset with requests := [.image ⟨[1007, 0, -3], none⟩] })
      (fun t => (t.rs, t.mem, t.requests)) =
      some (.executing, [(0, 1007), (2, -3)], []) := by decide

/-! ### Image, patches and files: section 2.8 -/

theorem test_append : (match append ⟨[1007, 1008], none⟩ 5000 with
    | .next p => p == (⟨[1007, 1008, 5000], none⟩, 2) | _ => false) = true := by decide

theorem test_overwrite_outside : (match overwriteAt ⟨[1, 2, 3], none⟩ 5 2109 with
    | .refused r => r == .imageLocation 5 | _ => false) = true := by decide

theorem test_resolve_discards_placeholder :
    (match resolve ⟨[0, 0, 0, 4137], none⟩ [⟨3, 50⟩] (fun l => if l = 50 then some 5 else none) with
    | .next img => img.words == [0, 0, 0, 4105] | _ => false) = true := by decide

theorem test_resolve_not_branch :
    (match resolve ⟨[0, 0, 0, 2099], none⟩ [⟨3, 50⟩] (fun _ => some 6) with
    | .refused r => r == .patchNotBranch 3 | _ => false) = true := by decide

theorem test_readImageFile_fills_gaps :
    (match readImageFile [['-', '1', ' ', 'S'], ['0', ' ', '+', '1', '0', '0', '7'],
        ['3', ' ', '-', '2']] with
    | .next img => img == ⟨[1007, 0, 0, -2], some ['S']⟩ | _ => false) = true := by decide

theorem test_readImageFile_five_digits :
    (match readImageFile [['0', ' ', '+', '1', '2', '3', '4', '5']] with
    | .refused r => r == .imageFile | _ => false) = true := by decide

/-- The examples of 30_encoding.md R86. -/
theorem test_readWritten :
    readWritten ['B', 'R', 'A', 'N', 'C', 'H', 'N', 'E', 'G', ' ', '1', '0'] = some 4110 ∧
      readWritten ['H', 'A', 'L', 'T', ' ', '0', '0'] = some 5000 ∧
      readWritten ['P', 'A', 'U', 'S', 'E'] = some 5100 ∧
      readWritten ['-', '0', '0', '0', '2'] = some (-2) := by decide

/-! ### Witnesses: states and operands that meet a statement's hypotheses together, at the boundaries
where its clauses meet -/

theorem witness_EncodedInstructionDecodesToItself :
    (Instr.read 0).WellFormed ∧ (Instr.pause 99).WellFormed := by decide

theorem witness_DecodedWordIsItsInstructionsEncoding :
    decode 5199 = .instr (.pause 99) ∧ otherAssignment.decode 5199 = .instr (.halt 99) := by decide

theorem witness_CodecLawsHold :
    ((10 : Int) ∈ opcodeSet ∧ (51 : Int) ∈ opcodeSet ∧ (99 : Int) ≤ Config.operandMax) ∧
      IsWord (-9999) := by decide

theorem witness_SplitWordHasTheSignOfTheWord : IsWord (-9999) ∧ IsWord 9999 := by decide

theorem witness_LegalWordsAreTheFiveRanges :
    IsWord 999 ∧ (splitWord 1000).1 ∈ opcodeSet ∧ (splitWord 5199).1 ∈ opcodeSet ∧
      decode 5200 = .illegalOpcode := by decide

theorem witness_PutIsSeenByGetAndByNothingElse :
    (InMemoryUnder hardware 0 ∧ InMemoryUnder hardware 99 ∧ ¬InMemoryUnder hardware 100 ∧
      ¬InMemoryUnder hardware (-1)) ∧ InMemoryUnder tiny 1 ∧ ¬InMemoryUnder tiny 2 := by decide

theorem witness_MemoriesThatReadAlikeAreEqual :
    ∃ m n : Memory, m.wf ∧ n.wf ∧ m ≠ [] ∧ ∀ a, m.read a = n.read a :=
  ⟨[(0, 5), (99, -1)], [(0, 5), (99, -1)], by decide, by decide, by decide, fun _ => rfl⟩

theorem witness_DumpHoldsTheRegistersAndEveryCell :
    (99 : Nat) < hardware.memSize ∧ (1 : Nat) < tiny.memSize := by decide

theorem witness_RunClearsTheMachineAndEntersLoading :
    State.reset.rs.Free ∧ (RunState.halted .fellOff).Free := ⟨.inl rfl, .inr ⟨_, rfl⟩⟩

theorem witness_AcceptedRunKeepsTheHistory :
    (∃ t, startRun .entry State.reset = .next t) ∧
      ∃ t, startRun (.image ⟨[5000], none⟩) { State.reset with out := [.readPrompt] } = .next t :=
  ⟨⟨_, rfl⟩, _, rfl⟩

theorem witness_RunImageLoadsTheImageAndExecutes :
    State.reset.rs.Free ∧ (Image.mk [9999, -9999, 0] none).WordsOnly ∧ (1 : Nat) < tiny.memSize :=
  ⟨.inl rfl, by decide, by decide⟩

theorem witness_RunImageRefusesAValueThatIsNoWord :
    State.reset.rs.Free ∧ ¬(Image.mk [9999, 10000] none).WordsOnly := ⟨.inl rfl, by decide⟩

theorem witness_RunIsRefusedWhileARunIsActive :
    (running 0 [] 0).rs.Busy ∧ (entering 0 []).rs.Busy ∧ RunState.paused.Busy :=
  ⟨.inr (.inl rfl), .inl rfl, .inr (.inr rfl)⟩

theorem witness_FreeMachineMovesOnlyByARequest :
    State.reset.rs.Free ∧ State.reset.requests = [] ∧
      ({ State.reset with requests := [.entry] } : State).requests = .entry :: [] :=
  ⟨.inl rfl, rfl, rfl⟩

theorem witness_EntryStoresTheWordAtTheNextFreeLocation :
    (entering 99 [9999]).rs = .loading ∧ (entering 99 [9999]).answers = 9999 :: [] ∧ IsWord 9999 ∧
      (entering 99 [9999]).ic < Config.memSize := by decide

theorem witness_SentinelEndsEntryAndStartsExecution :
    (entering 0 [-99999, 7]).rs = .loading ∧
      (entering 0 [-99999, 7]).answers = Config.entrySentinel :: [7] := by decide

theorem witness_BadEntryEndsTheRunWithALoadFault :
    (entering 100 [9999]).rs = .loading ∧ (entering 100 [9999]).answers = 9999 :: [] ∧
      (9999 : Int) ≠ Config.entrySentinel ∧ IsWord 9999 ∧ Config.memSize ≤ (entering 100 []).ic ∧
      (entering 2 [9999]).answers = 9999 :: [] ∧ tiny.memSize ≤ (entering 2 [9999]).ic ∧
      (10000 : Int) ≠ Config.entrySentinel ∧ ¬IsWord 10000 := by decide

theorem witness_UnansweredPromptHoldsTheCore :
    ((entering 0 []).hold.Waiting ∧ (running 0 [] 0).hold.Waiting ∧
      ({ running 0 [] 0 with rs := .paused } : State).Waiting) ∧
    (entering 0 []).rs = .loading ∧ (entering 0 []).prompted = false ∧ (entering 0 []).answers = [] :=
  ⟨⟨.inl ⟨rfl, rfl, rfl⟩, .inr (.inl ⟨rfl, rfl, rfl⟩), .inr (.inr ⟨rfl, rfl⟩)⟩, rfl, rfl, rfl⟩

theorem witness_StepRunsTheDecodedInstruction :
    (AboutToFetch (running 99 [(99, 3099)] 0) 3099 ∧ decode 3099 = .instr (.add 99)) ∧
      AboutToFetchUnder tiny (running 1 [(1, 3299)] 0) 3299 ∧
      tiny.opcodes.decode 3299 = .instr (.multiply 99) :=
  ⟨⟨⟨rfl, rfl, by decide, by decide, rfl⟩, by decide⟩, ⟨rfl, rfl, by decide, by decide, rfl⟩,
    by decide⟩

theorem witness_IllegalWordFaultsAtDecode :
    AboutToFetch (running 0 [] 0) 0 ∧ decode 0 = .illegalOpcode :=
  ⟨⟨rfl, rfl, by decide, by decide, rfl⟩, by decide⟩

theorem witness_PcPastTheEndFallsOff :
    (running 100 [] 0).rs = .executing ∧ (running 100 [] 0).prompted = false ∧
      Config.memSize ≤ (running 100 [] 0).pc ∧ tiny.memSize ≤ (running 2 [] 0).pc := by decide

theorem witness_FaultingInstructionLeavesAccMemoryAndPc :
    ∃ t, exec (.divide 8) (running 3 [(3, 3208)] 7) = .next t ∧
      t.rs = .halted (.fault .divideByZero) ∧ (running 3 [(3, 3208)] 7).rs ≠ t.rs :=
  ⟨_, rfl, by decide, by decide⟩

theorem witness_StoredWordIsTheNextFetched :
    (running 98 [] 5000).rs = .executing ∧ (running 98 [] 5000).prompted = false ∧
      (running 98 [] 5000).opc ≠ haltCode ∧ (running 98 [] 5000).pc + 1 < Config.memSize ∧
      ∃ t u, exec (.store ((running 98 [] 5000).pc + 1)) (running 98 [] 5000) = .next t ∧
        step t = .next u :=
  ⟨rfl, rfl, by decide, by decide, _, _, rfl, rfl⟩

theorem witness_LoadSetsTheAccumulator : (99 : Nat) < Config.memSize ∧ Config.memSize ≤ 100 := by
  decide

theorem witness_StoreWritesAndClearsTheAccumulator :
    (99 : Nat) < Config.memSize ∧ Config.memSize ≤ 100 := by decide

theorem witness_WritePrintsTheWord : (0 : Nat) < Config.memSize ∧ Config.memSize ≤ 100 := by decide

theorem witness_AddGivesTheExactSumOrOverflows :
    (99 : Nat) < Config.memSize ∧ IsWord ((running 0 [(99, 1)] 9998).acc + (running 0 [(99, 1)] 9998).mem.read 99) ∧
      ¬IsWord ((running 0 [(99, 1)] 9999).acc + (running 0 [(99, 1)] 9999).mem.read 99) ∧
      Config.memSize ≤ 100 := by decide

theorem witness_SubtractGivesTheExactDifferenceOrOverflows :
    (99 : Nat) < Config.memSize ∧ IsWord ((running 0 [(99, 1)] (-9998)).acc - (running 0 [(99, 1)] (-9998)).mem.read 99) ∧
      ¬IsWord ((running 0 [(99, 1)] (-9999)).acc - (running 0 [(99, 1)] (-9999)).mem.read 99) ∧
      Config.memSize ≤ 100 := by decide

theorem witness_MultiplyGivesTheExactProductOrOverflows :
    (99 : Nat) < Config.memSize ∧ IsWord ((running 0 [(99, 101)] 99).acc * (running 0 [(99, 101)] 99).mem.read 99) ∧
      ¬IsWord ((running 0 [(99, 100)] 100).acc * (running 0 [(99, 100)] 100).mem.read 99) ∧
      Config.memSize ≤ 100 := by decide

theorem witness_DivideTruncatesTowardZero :
    (99 : Nat) < Config.memSize ∧ (running 0 [(99, -1)] (-9999)).mem.read 99 ≠ 0 ∧
      IsWord (running 0 [(99, -1)] (-9999)).acc ∧ (running 0 [] 5).mem.read 99 = 0 ∧
      Config.memSize ≤ 100 := by decide

theorem witness_ReadStoresTheConsoleInteger :
    ({ running 0 [] 0 with answers := [-9999, 4] } : State).answers = -9999 :: [4] ∧ IsWord (-9999) ∧
      (99 : Nat) < Config.memSize := by decide

theorem witness_ReadFaultsOnItsValueBeforeItsLocation :
    ({ running 0 [] 0 with answers := [10000] } : State).answers = 10000 :: [] ∧ ¬IsWord 10000 ∧
      ({ running 0 [] 0 with answers := [9999] } : State).answers = 9999 :: [] ∧ IsWord 9999 ∧
      Config.memSize ≤ 100 := by decide

theorem witness_ReadHoldsUntilTheConsoleAnswers :
    (running 0 [] 0).answers = [] ∧
      ∃ s : State, s.rs = .executing ∧ s.prompted = true ∧ s.opd = ((99 : Nat) : Int) ∧
        s.answers = 9999 :: [10000] ∧ IsWord 9999 ∧ ¬IsWord 10000 :=
  ⟨rfl, { running 0 [] 0 with prompted := true, opd := 99, answers := [9999, 10000] },
    rfl, rfl, rfl, rfl, by decide, by decide⟩

theorem witness_BranchesSetThePc :
    (running 0 [] (-1)).acc < 0 ∧ 0 ≤ (running 0 [] 0).acc ∧ (running 0 [] 0).acc = 0 ∧
      (running 0 [] 1).acc ≠ 0 := by decide

theorem witness_BranchToItselfChangesOnlyTheCounter :
    ∃ s : State, AboutToFetch s 4209 ∧ s.ir = 4209 ∧ (s.opc, s.opd) = splitWord 4209 ∧
      decode 4209 = .instr (.branchZero s.pc) ∧ s.acc = 0 :=
  ⟨{ running 9 [(9, 4209)] 0 with ir := 4209, opc := 42, opd := 9 },
    ⟨rfl, rfl, by decide, by decide, rfl⟩, rfl, by decide, by decide, rfl⟩

theorem witness_PausePromptsAndResumesOnTheAcknowledgment :
    ({ running 0 [] 0 with acks := [true, false] } : State).acks = true :: [false] := rfl

theorem witness_PausedCoreTakesTheAcknowledgment :
    (running 0 [] 0).acks = [] ∧
      ∃ s : State, s.rs = .paused ∧ s.acks = false :: [] :=
  ⟨rfl, { running 0 [] 0 with rs := .paused, acks := [false] }, rfl, rfl⟩

theorem witness_AccumulatorInstructionsLeaveTheRestAlone :
    ∃ t, exec (.divide 99) (running 0 [(99, -1)] 7) = .next t := ⟨_, rfl⟩

theorem witness_StoringInstructionsWriteOnlyTheirOperand :
    (∃ t, exec (.store 99) (running 0 [] 7) = .next t) ∧
      ∃ t, exec (.read 99) { running 0 [] 7 with answers := [3] } = .next t := ⟨⟨_, rfl⟩, _, rfl⟩

theorem witness_BranchesWriteNothingButThePc :
    ∃ t, exec (.branchNeg 99) (running 0 [] (-1)) = .next t := ⟨_, rfl⟩

theorem witness_PrintingInstructionsLeaveAccAndMemoryAlone :
    ∃ t, exec (.pause 0) { running 0 [] 7 with acks := [true] } = .next t := ⟨_, rfl⟩

/-- A core that runs an ADD at the last location meets the invariant, and it steps. -/
theorem witness_StepKeepsTheInvariant :
    ((running 99 [(99, 3099)] 5).Inv ∧ ∃ t, step (running 99 [(99, 3099)] 5) = .next t) ∧
      (running 1 [(1, 3001)] 5).InvUnder tiny ∧ ∃ t, stepUnder tiny (running 1 [(1, 3001)] 5) = .next t :=
  ⟨⟨⟨by decide, by decide, by decide, by decide, by decide, by decide, by decide,
    fun h => absurd h (by decide), fun h => absurd h (by decide), fun _ => by decide,
    fun h => absurd h (by decide), fun h => absurd h (by decide)⟩, _, rfl⟩,
   ⟨by decide, by decide, by decide, by decide, by decide, by decide, by decide,
    fun h => absurd h (by decide), fun h => absurd h (by decide), fun _ => by decide,
    fun h => absurd h (by decide), fun h => absurd h (by decide)⟩, _, rfl⟩

theorem witness_RunStateChangesOnlyAsListed :
    ∃ t, step (running 0 [(0, 5100)] 0) = .next t ∧ t.rs = .paused := ⟨_, rfl, rfl⟩

theorem witness_OutputHistoryOnlyGrows :
    ∃ t, step (running 0 [(0, 1100)] 0) = .next t ∧ t.out = [.written 1100] := ⟨_, rfl, by decide⟩

theorem witness_OnlyRunsEntryStoreAndReadWriteMemory :
    ∃ t, step (running 0 [(0, 2107)] 5) = .next t ∧
      t.get 7 ≠ (running 0 [(0, 2107)] 5).get 7 := ⟨_, rfl, by decide⟩

theorem witness_LegalOperandsNeverLeaveMemory :
    (Instr.store 99).WellFormed ∧ (running 0 [] 7).rs = .executing ∧
      (∃ t, exec (.store 99) (running 0 [] 7) = .next t) ∧
      (Config.operandMax < hardware.memSize ∧
        ∃ t, execUnder hardware (.store 99) (running 0 [] 7) = .next t) ∧
      fifty.memSize ≤ 50 ∧ ({ running 0 [] 7 with answers := [9999] } : State).answers = 9999 :: [] ∧
      IsWord 9999 :=
  ⟨by decide, rfl, ⟨_, rfl⟩, ⟨by decide, _, rfl⟩, by decide, rfl, by decide⟩

theorem witness_InstructionCounterCountsFetches :
    (∃ t, step (running 0 [(0, 4000)] 0) = .next t) ∧ (running 0 [(0, 4000)] 0).rs.Busy ∧
      AboutToFetch (running 0 [(0, 4000)] 0) 4000 :=
  ⟨⟨_, rfl⟩, .inr (.inl rfl), rfl, rfl, by decide, by decide, rfl⟩

/-- Two entries at different locations; the whole of section 2.8's first Resolve row. -/
theorem witness_ResolvedBranchesGoToTheirLines :
    ∃ img', resolve ⟨[4000, 4200], none⟩ [⟨1, 50⟩, ⟨0, 10⟩] (fun l => if l = 50 then some 99 else some 0)
        = .next img' ∧
      (∀ p ∈ [PatchEntry.mk 1 50, PatchEntry.mk 0 10], ∀ q ∈ [PatchEntry.mk 1 50, PatchEntry.mk 0 10],
        p.location = q.location →
        (fun l : Int => if l = 50 then some 99 else some 0) p.targetLine =
          (fun l : Int => if l = 50 then some 99 else some 0) q.targetLine) :=
  ⟨_, rfl, by decide⟩

theorem witness_UndefinedLineStopsResolution :
    ∃ img', resolve ⟨[4000, 4200], none⟩ [⟨1, 50⟩] (fun l => if l = 50 then some 99 else none)
        = .next img' ∧ (fun l : Int => if l = 50 then some 99 else none) 70 = none :=
  ⟨_, rfl, rfl⟩

/-- One state of the resolution for each of the three malformed entries. -/
theorem witness_MalformedPatchEntryIsRefused :
    ∃ img', resolve ⟨[4200, 2099], none⟩ [⟨0, 50⟩] (fun l => if l = 50 then some 99 else some 100)
        = .next img' ∧
      (fun l : Int => if l = 50 then some 99 else some 100) 70 = some 100 ∧
      ((img'.words.length : Int) ≤ 2) ∧
      (splitWord (img'.words.getD 1 0)).1 ∉ [codeOf .branch, codeOf .branchNeg, codeOf .branchZero] ∧
      (splitWord (img'.words.getD 0 0)).1 ∈ [codeOf .branch, codeOf .branchNeg, codeOf .branchZero] ∧
      Config.operandMax < 100 :=
  ⟨_, rfl, rfl, by decide, by decide, by decide, by decide⟩

theorem witness_ImageAppendsAndOverwritesByLocation :
    IsWord 9999 ∧ ¬IsWord 10000 ∧ (0 : Int) ≤ 1 ∧ (1 : Int) < (Image.mk [1, 2] none).words.length ∧
      ((Image.mk [1, 2] none).words.length : Int) ≤ 2 := by decide

theorem witness_ImageFileReadsBackTheImage : (Image.mk [1007, -9999, 0] (some ['S'])).WordsOnly := by
  decide

theorem witness_ImageFileRefusesARepeatedOrMalformedLine :
    readLine ['-', '2', ' ', '1'] = none ∧
      readLine ['0', '7', ' ', '1'] = some (.cell 7 1) ∧
      readLine ['7', ' ', '-', '9', '9'] = some (.cell 7 (-99)) := by decide

theorem witness_WrittenFormDenotesTheWord :
    (Instr.branchNeg 10).WellFormed ∧ (Instr.halt 0).WellFormed ∧ IsWord (-2) := by decide

end Sys2Proof.Tests
end

/-! ## Proofs: the model answers, starts well, and refuses bad entries -/

section

open Sys2Proof.Claims

namespace Sys2Proof.Machine

/-! ### Reset -/

/-- The state at reset meets the invariant whatever the parameters: its zeros are Words that decode to
zeros, and being Idle it meets the clauses on the other run states by having none of them. -/
theorem State.reset_invUnder (p : Parameters) : State.reset.InvUnder p where
  accWord := by decide
  irWord := by decide
  decoded := rfl
  cellWord _ hc := absurd hc List.not_mem_nil
  cellLoc _ hc := absurd hc List.not_mem_nil
  canonical := State.reset_mem_wf
  pcBound := Nat.zero_le _
  idleZero _ := ⟨⟨rfl, rfl, rfl, rfl, rfl, rfl⟩, rfl⟩
  loadingZero h := absurd h (by decide)
  notHalt h := absurd h (by decide)
  pausedAt h := absurd h (by decide)
  promptedAt h := absurd h (by decide)

/-- Settles O48: the invariant of reset, at this hardware's parameters and at all. -/
theorem resetMeetsTheInvariant : Obligations.ResetMeetsTheInvariant :=
  ⟨State.reset_invUnder hardware, State.reset_invUnder⟩

/-! ### Every handler answers a next state -/

/-- READ answers a next state: a hold, or the console's integer taken. -/
theorem execReadUnder_next (p : Parameters) (a : Nat) (s : State) :
    ∃ t, execReadUnder p a s = .next t := by
  unfold execReadUnder
  split
  · exact ⟨_, rfl⟩
  · exact ⟨_, rfl⟩

/-- PAUSE answers a next state: Paused, or the acknowledgment taken. -/
theorem execPauseUnder_next (p : Parameters) (x : Nat) (s : State) :
    ∃ t, execPauseUnder p x s = .next t := by
  unfold execPauseUnder
  split
  · exact ⟨_, rfl⟩
  · exact ⟨_, rfl⟩

/-- No handler faults or refuses (40_cycle.md R106): but for READ and PAUSE, which look at the console
first, each is `.next` of a state by definition, the fault paths included. -/
theorem execUnder_next (p : Parameters) (i : Instr) (s : State) :
    ∃ t, execUnder p i s = .next t := by
  cases i with
  | read a => exact execReadUnder_next p a s
  | pause x => exact execPauseUnder_next p x s
  | write _ | load _ | store _ | add _ | subtract _ | divide _ | multiply _
  | branch _ | branchNeg _ | branchZero _ | halt _ => exact ⟨_, rfl⟩

/-- Settles O46: `execUnder_next`, which this hardware's `exec` shares through `exec_eq`. -/
theorem everyInstructionAnswersANextState : Obligations.EveryInstructionAnswersANextState :=
  ⟨fun i s => exec_eq i s ▸ execUnder_next hardware i s, execUnder_next⟩

/-! ### Entry of a console integer -/

/-- The entry prompt changes nothing but the history. -/
theorem State.promptEntry_eq (s : State) : s.promptEntry = { s with out := printedAtEntry s } := by
  unfold State.promptEntry printedAtEntry
  split <;> rfl

/-- A Loading core whose answer is there takes it: prompt, answer, entry (70_reset_and_hazards.md R256). -/
theorem stepUnder_loading_answered (p : Parameters) (s : State) (v : Int) (rest : List Int)
    (hr : s.rs = .loading) (ha : s.answers = v :: rest) :
    stepUnder p s = .next (enterValue p v (s.promptEntry.takeAnswer rest)) := by
  simp only [stepUnder, stepWith_loading p _ s hr, entryStep, ha]

/-- A value that is neither the sentinel nor a Word is a load fault (70_reset_and_hazards.md R258). -/
theorem enterValue_not_isWord (p : Parameters) (v : Int) (s : State)
    (hs : v ≠ Config.entrySentinel) (hw : ¬IsWord v) :
    enterValue p v s = s.loadFault p .inputRange :=
  (if_neg hs).trans (if_neg hw)

/-- A Word entered when memory is full is a load fault (70_reset_and_hazards.md R258). -/
theorem enterValue_full (p : Parameters) (v : Int) (s : State)
    (hs : v ≠ Config.entrySentinel) (hw : IsWord v) (hi : p.memSize ≤ s.ic) :
    enterValue p v s = s.loadFault p (.outOfRange s.ic) := by
  simp only [enterValue, if_neg hs, if_pos hw, s.put_natCast_none p s.ic v hi, Option.elim_none]

/-- The state a load fault leaves after the prompt and the answer, in terms of the state before the entry:
the report and the dump show registers and memory that the entry has not touched. -/
theorem State.loadFault_after_prompt (p : Parameters) (s : State) (rest : List Int) (c : FaultCause) :
    (s.promptEntry.takeAnswer rest).loadFault p c = { s with
      rs := .halted (.fault c), answers := rest, prompted := false
      out := printedAtEntry s ++ [.faultReport c s.ic s.ir, .dump (dumpOfUnder p s)] } := by
  rw [State.promptEntry_eq, State.mk.injEq]
  simp [dumpOfUnder]

/-- A value that is no Word ends the run, under any parameters. -/
theorem stepUnder_entry_not_isWord (p : Parameters) (s : State) (v : Int) (rest : List Int)
    (hr : s.rs = .loading) (ha : s.answers = v :: rest) (hs : v ≠ Config.entrySentinel)
    (hw : ¬IsWord v) :
    stepUnder p s = .next { s with
      rs := .halted (.fault .inputRange), answers := rest, prompted := false
      out := printedAtEntry s ++ [.faultReport .inputRange s.ic s.ir, .dump (dumpOfUnder p s)] } := by
  rw [stepUnder_loading_answered p s v rest hr ha, enterValue_not_isWord p v _ hs hw,
    State.loadFault_after_prompt]

/-- A Word for which memory has no room ends the run, under any parameters. -/
theorem stepUnder_entry_full (p : Parameters) (s : State) (v : Int) (rest : List Int)
    (hr : s.rs = .loading) (ha : s.answers = v :: rest) (hs : v ≠ Config.entrySentinel)
    (hw : IsWord v) (hi : p.memSize ≤ s.ic) :
    stepUnder p s = .next { s with
      rs := .halted (.fault (.outOfRange s.ic)), answers := rest, prompted := false
      out := printedAtEntry s ++
        [.faultReport (.outOfRange s.ic) s.ic s.ir, .dump (dumpOfUnder p s)] } := by
  have hic : (s.promptEntry.takeAnswer rest).ic = s.ic := by rw [State.promptEntry_eq]; rfl
  rw [stepUnder_loading_answered p s v rest hr ha, enterValue_full p v _ hs hw (hic.symm ▸ hi), hic,
    State.loadFault_after_prompt]

/-- Settles O20: the two load faults under any parameters, of which this hardware's step is a case. -/
theorem badEntryEndsTheRunWithALoadFault : Obligations.BadEntryEndsTheRunWithALoadFault :=
  ⟨fun s v rest hr ha hs =>
    ⟨fun hw => (step_eq s).trans (stepUnder_entry_not_isWord hardware s v rest hr ha hs hw),
      fun hw hi => (step_eq s).trans (stepUnder_entry_full hardware s v rest hr ha hs hw hi)⟩,
   fun p s v rest hr ha hs =>
    ⟨stepUnder_entry_not_isWord p s v rest hr ha hs, stepUnder_entry_full p s v rest hr ha hs⟩⟩

end Sys2Proof.Machine

end

/-! ## Proofs: what every step keeps of the state -/

section

open Sys2Proof.Claims

namespace Sys2Proof.Machine

/-! ### Memory: the canonical form, and the words it may hold -/

/-- In canonical form the entries are exactly the cells that do not read 0. -/
theorem Memory.mem_iff_read_eq {m : Memory} (h : m.wf) (c : Nat × Int) :
    c ∈ m ↔ c.2 ≠ 0 ∧ m.read c.1 = c.2 := by
  obtain ⟨hlt, hne⟩ := h
  refine ⟨fun hc => ⟨hne c hc, ?_⟩, fun ⟨hc, e⟩ => ?_⟩
  · induction m with
    | nil => cases hc
    | cons d m ih =>
      have hd := List.pairwise_cons.mp hlt
      rcases List.mem_cons.mp hc with rfl | hc
      · exact if_pos rfl
      · have hk : d.1 ≠ c.1 := (hd.1 c hc).ne
        rw [Memory.read_cons, if_neg hk]
        exact ih hd.2 (fun x hx => hne x (List.mem_cons_of_mem d hx)) hc
  · rcases m.read_zero_or_mem c.1 with hz | hm
    · exact absurd (e.symm.trans hz) hc
    · rwa [e] at hm

/-- Settles O9: memories in canonical form that read alike have the same entries, and rising lists of the
same entries are equal. -/
theorem memoriesThatReadAlikeAreEqual : Obligations.MemoriesThatReadAlikeAreEqual := by
  intro m n hm hn hread
  have _ : Std.Antisymm (fun c d : Nat × Int => c.1 < d.1) :=
    ⟨fun _ _ h h' => absurd h (Nat.lt_asymm h')⟩
  have _ : Std.Irrefl (fun c d : Nat × Int => c.1 < d.1) := ⟨fun c => Nat.lt_irrefl c.1⟩
  refine hm.1.eq_of_mem_iff hn.1 fun c => ?_
  rw [Memory.mem_iff_read_eq hm, Memory.mem_iff_read_eq hn, hread]

/-- The clauses of the invariant that speak of memory (10_state.md R28). -/
structure Memory.Sound (p : Parameters) (m : Memory) : Prop where
  /-- every entry holds a Word -/
  cellWord : ∀ c ∈ m, IsWord c.2
  /-- entries stand at locations of memory -/
  cellLoc : ∀ c ∈ m, c.1 < p.memSize
  /-- the canonical form -/
  canonical : m.wf

namespace Memory.Sound

variable {p : Parameters} {m : Memory}

theorem nil : Memory.Sound p [] := ⟨nofun, nofun, Memory.wf_nil⟩

theorem read_isWord (h : m.Sound p) (a : Nat) : IsWord (m.read a) := by
  rcases m.read_zero_or_mem a with hz | hm
  · rw [hz]; decide
  · exact h.cellWord _ hm

theorem write (h : m.Sound p) {a : Nat} {v : Int} (ha : a < p.memSize) (hv : IsWord v) :
    (m.write a v).Sound p where
  cellWord c hc := by
    rcases m.mem_write a v c hc with rfl | hc
    · exact hv
    · exact h.cellWord c hc
  cellLoc c hc := by
    rcases m.mem_write a v c hc with rfl | hc
    · exact ha
    · exact h.cellLoc c hc
  canonical := m.write_wf a v h.canonical

theorem loadFrom (h : m.Sound p) {ws : List Int} (hws : ∀ w ∈ ws, IsWord w) (i : Nat) :
    (Memory.loadFrom p i ws m).Sound p :=
  Memory.loadFrom_induction p (Memory.Sound p) ws
    (fun _ _ w hm hi hw => hm.write hi (hws w hw)) i m h

end Memory.Sound

/-- A bulk load is not refused exactly when it brings Words only (70_reset_and_hazards.md R260). -/
theorem firstNonWord_eq_none (ws : List Int) :
    firstNonWord ws = none ↔ ∀ w ∈ ws, IsWord w := by
  simp [firstNonWord]

/-! ### Memory as Get sees it -/

theorem sameCells_of_mem_eq (p : Parameters) {s t : State} (h : t.mem = s.mem) :
    SameCellsUnder p s t := fun l => State.get_congr p s t l h

/-- A write is seen at its own location only. -/
theorem sameCellsBut_of_mem_write (p : Parameters) {s t : State} {a : Int} (ha : 0 ≤ a) (v : Int)
    (h : t.mem = s.mem.write a.toNat v) : SameCellsButUnder p a s t := by
  intro l hl
  by_cases hin : InMemoryUnder p l
  · have hne : l.toNat ≠ a.toNat := by obtain ⟨h0, _⟩ := hin; omega
    rw [State.get_of_inMemory p t l hin, State.get_of_inMemory p s l hin, h,
      Memory.read_write_other _ _ _ _ hne]
  · rw [State.get_of_not_inMemory p t l hin, State.get_of_not_inMemory p s l hin]

/-! ### The shared operations, written out -/

theorem State.runtimeFault_eq (p : Parameters) (s : State) (c : FaultCause) :
    s.runtimeFault p c = faultedUnder p s c := by
  simp only [faultedUnder, ← State.runtimeFault_out]
  rfl

theorem State.fallOff_eq (p : Parameters) (s : State) :
    s.fallOff p = { s with
      rs := .halted .fellOff
      out := s.out ++ if p.dumpOnFalloff then [.dump (dumpOfUnder p s)] else [] } := by
  rw [← State.fallOff_out]
  unfold State.fallOff
  split <;> rfl

/-- What an acknowledgment does (45_halt_pause.md R175). -/
theorem acknowledge_eq (p : Parameters) (w : Bool) (s : State) :
    acknowledge p w s = { s with
      rs := .executing, pc := s.pc + 1
      out := s.out ++ if w then [.dump (dumpOfUnder p s)] else [] } := by
  cases w with
  | false => simp [acknowledge, State.setRunState, State.advance]
  | true => rfl

/-- Only READ has done anything before its fault (60_exceptions.md R224). -/
theorem faultBase_of_ne_read {i : Instr} (s : State) (h : ∀ a, i ≠ .read a) : faultBase i s = s := by
  cases i with
  | read a => exact absurd rfl (h a)
  | _ => rfl

/-- The state in which a fault is taken differs by READ's prompt and the integer it took at most. -/
theorem faultBase_cases (i : Instr) (s : State) :
    faultBase i s = s ∨ faultBase i s = readTaken s s.answers.tail := by
  cases i with
  | read a => exact .inr rfl
  | _ => exact .inl rfl

/-! ### The frames of the instructions -/

/-- LOAD and the arithmetic instructions put a value in acc and go on. -/
theorem Effect.of_accumulator {p : Parameters} {a : Nat} {i : Instr} {s t : State}
    (hi : i = .load a ∨ i = .add a ∨ i = .subtract a ∨ i = .divide a ∨ i = .multiply a)
    (h : Effect p i s t) : ∃ v, t = (s.setAcc v).advance := by
  rcases hi with rfl | rfl | rfl | rfl | rfl
  · obtain ⟨_, e⟩ := h; exact ⟨_, e⟩
  · obtain ⟨_, _, e⟩ := h; exact ⟨_, e⟩
  · obtain ⟨_, _, e⟩ := h; exact ⟨_, e⟩
  · obtain ⟨_, _, e⟩ := h; exact ⟨_, e⟩
  · obtain ⟨_, _, e⟩ := h; exact ⟨_, e⟩

/-- Settles O42: a fault leaves `faulted`, and the effect is a value in acc and the next pc. -/
theorem accumulatorInstructionsLeaveTheRestAlone :
    Obligations.AccumulatorInstructionsLeaveTheRestAlone := by
  intro a i s t hi h
  rcases exec_cases i s t h with ⟨c, rfl⟩ | he
  · have hb : faultBase i s = s := faultBase_of_ne_read s (by rintro b rfl; simp at hi)
    rw [hb]
    exact ⟨sameCells_of_mem_eq hardware rfl, ⟨rfl, rfl, rfl, rfl⟩, ⟨rfl, rfl, rfl⟩, rfl,
      .inr ⟨c, State.runtimeFault_eq hardware s c⟩⟩
  · obtain ⟨v, rfl⟩ := he.of_accumulator hi
    exact ⟨sameCells_of_mem_eq hardware rfl, ⟨rfl, rfl, rfl, rfl⟩, ⟨rfl, rfl, rfl⟩, rfl,
      .inl ⟨rfl, rfl⟩⟩

/-- STORE changes its cell, acc and the pc, or faults. -/
theorem exec_store_frame {a : Nat} {s t : State} (h : exec (.store a) s = .next t) :
    SameCellsBut a s t ∧ SameFetched s t ∧ SameStreams s t ∧ t.prompted = s.prompted ∧
      ((t.rs = s.rs ∧ t.out = s.out) ∨ ∃ c, t = faulted s c) := by
  rcases exec_cases _ s t h with ⟨c, rfl⟩ | ⟨_, rfl⟩
  · exact ⟨fun l _ => sameCells_of_mem_eq hardware rfl l, ⟨rfl, rfl, rfl, rfl⟩, ⟨rfl, rfl, rfl⟩, rfl,
      .inr ⟨c, State.runtimeFault_eq hardware s c⟩⟩
  · exact ⟨sameCellsBut_of_mem_write hardware (Int.natCast_nonneg a) s.acc rfl,
      ⟨rfl, rfl, rfl, rfl⟩, ⟨rfl, rfl, rfl⟩, rfl, .inl ⟨rfl, rfl⟩⟩

/-- READ prints its prompt and holds, or takes one integer and changes its cell and the pc, or faults. -/
theorem exec_read_frame {a : Nat} {s t : State} (h : exec (.read a) s = .next t) :
    SameCellsBut a s t ∧ t.acc = s.acc ∧ SameFetched s t ∧
      t.answers = s.answers.tail ∧ t.acks = s.acks ∧ t.requests = s.requests ∧
      ((t.rs = s.rs ∧ t.out = s.out ++ [.readPrompt]) ∨
        ∃ c, t = faulted (readTaken s s.answers.tail) c) := by
  rcases exec_cases _ s t h with ⟨c, rfl⟩ | ⟨ha, rfl⟩ | ⟨v, rest, ha, _, _, rfl⟩
  · exact ⟨fun l _ => sameCells_of_mem_eq hardware rfl l, rfl, ⟨rfl, rfl, rfl, rfl⟩, rfl, rfl, rfl,
      .inr ⟨c, State.runtimeFault_eq hardware _ c⟩⟩
  · exact ⟨fun l _ => sameCells_of_mem_eq hardware rfl l, rfl, ⟨rfl, rfl, rfl, rfl⟩, by simp [ha], rfl,
      rfl, .inl ⟨rfl, rfl⟩⟩
  · exact ⟨sameCellsBut_of_mem_write hardware (Int.natCast_nonneg a) v rfl, rfl,
      ⟨rfl, rfl, rfl, rfl⟩, by simp [ha], rfl, rfl, .inl ⟨rfl, rfl⟩⟩

/-- Settles O43: the frames of STORE and of READ. -/
theorem storingInstructionsWriteOnlyTheirOperand :
    Obligations.StoringInstructionsWriteOnlyTheirOperand :=
  fun _ _ _ => ⟨exec_store_frame, exec_read_frame⟩

/-- HALT raises no fault (45_halt_pause.md R171). -/
theorem effect_of_exec_halt {x : Nat} {s t : State} (h : exec (.halt x) s = .next t) :
    Effect hardware (.halt x) s t := by
  injection h with h
  exact h.symm

/-- PAUSE raises no fault, with an acknowledgment or without (45_halt_pause.md R175). -/
theorem effect_of_exec_pause {x : Nat} {s t : State} (h : exec (.pause x) s = .next t) :
    Effect hardware (.pause x) s t := by
  simp only [exec, execPause, execPauseUnder] at h
  split at h <;> injection h with h
  · next ha => exact .inl ⟨ha, h.symm⟩
  · next w rest ha => exact .inr ⟨w, rest, ha, h.symm⟩

/-- Settles O45: each of the three prints, and PAUSE takes the acknowledgment there is. -/
theorem printingInstructionsLeaveAccAndMemoryAlone :
    Obligations.PrintingInstructionsLeaveAccAndMemoryAlone := by
  intro n i s t hi h
  rcases hi with rfl | rfl | rfl
  · rcases exec_cases _ s t h with ⟨c, rfl⟩ | ⟨_, rfl⟩
    · exact ⟨rfl, sameCells_of_mem_eq hardware rfl, ⟨rfl, rfl, rfl, rfl⟩, rfl, rfl, rfl, rfl⟩
    · exact ⟨rfl, sameCells_of_mem_eq hardware rfl, ⟨rfl, rfl, rfl, rfl⟩, rfl, rfl, rfl, rfl⟩
  · obtain rfl := effect_of_exec_halt h
    exact ⟨rfl, sameCells_of_mem_eq hardware rfl, ⟨rfl, rfl, rfl, rfl⟩, rfl, rfl, rfl, rfl⟩
  · rcases effect_of_exec_pause h with ⟨ha, rfl⟩ | ⟨w, rest, ha, rfl⟩
    · exact ⟨rfl, sameCells_of_mem_eq hardware rfl, ⟨rfl, rfl, rfl, rfl⟩, rfl, rfl, rfl, by simp [ha]⟩
    · rw [acknowledge_eq]
      exact ⟨rfl, sameCells_of_mem_eq hardware rfl, ⟨rfl, rfl, rfl, rfl⟩, rfl, rfl, rfl, by simp [ha]⟩

/-! ### What an instruction can do, by what it writes -/

/-- What `execUnder` can make of a state, with LOAD and arithmetic in one kind and the branches in one. -/
inductive ExecKind (p : Parameters) (s : State) : Instr → State → Prop where
  /-- a fault of the instruction's own; a READ has printed and taken its integer by then -/
  | fault (i : Instr) (c : FaultCause) (printed : List OutEvent) (answers : List Int)
      (prompted : Bool) (hp : s.prompted = false → prompted = false) :
      ExecKind p s i { s with
        rs := .halted (.fault c), out := s.out ++ printed, answers := answers, prompted := prompted }
  /-- LOAD and arithmetic: acc gets a value that is a Word where acc and the cells are -/
  | calculated (i : Instr) (v : Int) (hi : i.op ≠ .halt)
      (hv : IsWord s.acc → (∀ a, IsWord (s.mem.read a)) → IsWord v) :
      ExecKind p s i (s.setAcc v).advance
  /-- STORE -/
  | stored (a : Nat) (ha : a < p.memSize) :
      ExecKind p s (.store a) (({ s with mem := s.mem.write a s.acc } : State).setAcc 0).advance
  /-- READ, no answer -/
  | readHeld (a : Nat) (hs : s.answers = []) : ExecKind p s (.read a) (s.emit .readPrompt).hold
  /-- READ, an answer that is a Word -/
  | readStored (a : Nat) (v : Int) (rest : List Int) (hs : s.answers = v :: rest) (hv : IsWord v)
      (ha : a < p.memSize) :
      ExecKind p s (.read a)
        ({ (s.emit .readPrompt).takeAnswer rest with mem := s.mem.write a v } : State).advance
  /-- WRITE -/
  | wrote (a : Nat) : ExecKind p s (.write a) (s.emit (.written (s.mem.read a))).advance
  /-- a branch, taken or not -/
  | moved (i : Instr) (n : Nat) (hi : i.op ≠ .halt) (hn : n = s.pc + 1 ∨ n = i.operand) :
      ExecKind p s i (s.jump n)
  /-- HALT -/
  | ended (x : Nat) : ExecKind p s (.halt x) ((s.advance.setRunState (.halted .halt)).emitDump p)
  /-- PAUSE, no acknowledgment -/
  | pauseHeld (x : Nat) (hs : s.acks = []) :
      ExecKind p s (.pause x) ((s.setRunState .paused).emit .pausePrompt)
  /-- PAUSE, an acknowledgment -/
  | pauseAcked (x : Nat) (rest : List Bool) (printed : List OutEvent) :
      ExecKind p s (.pause x) { s with
        rs := .executing, pc := s.pc + 1, acks := rest, out := s.out ++ printed }

/-- A quotient rounded toward zero is no larger than the dividend (43_arithmetic.md R144). -/
theorem isWord_tdiv {v : Int} (h : IsWord v) (m : Int) : IsWord (v.tdiv m) := by
  have hle := Int.natAbs_tdiv_le_natAbs v m
  simp only [IsWord, Config.wordMax] at h ⊢
  omega

theorem Effect.kind {p : Parameters} {i : Instr} {s t : State} (h : Effect p i s t) :
    ExecKind p s i t := by
  cases i with
  | read a =>
    rcases h with ⟨hs, rfl⟩ | ⟨v, rest, hs, hv, ha, rfl⟩
    · exact .readHeld a hs
    · exact .readStored a v rest hs hv ha
  | write a => obtain ⟨_, rfl⟩ := h; exact .wrote a
  | load a => obtain ⟨_, rfl⟩ := h; exact .calculated _ _ nofun fun _ hm => hm a
  | store a => obtain ⟨ha, rfl⟩ := h; exact .stored a ha
  | add a => obtain ⟨_, hv, rfl⟩ := h; exact .calculated _ _ nofun fun _ _ => hv
  | subtract a => obtain ⟨_, hv, rfl⟩ := h; exact .calculated _ _ nofun fun _ _ => hv
  | divide a =>
    obtain ⟨_, _, rfl⟩ := h
    exact .calculated _ _ nofun fun hacc _ => isWord_tdiv hacc _
  | multiply a => obtain ⟨_, hv, rfl⟩ := h; exact .calculated _ _ nofun fun _ _ => hv
  | branch n => obtain rfl := h; exact .moved _ n nofun (.inr rfl)
  | branchNeg n =>
    rcases h with ⟨_, rfl⟩ | ⟨_, rfl⟩
    · exact .moved _ n nofun (.inr rfl)
    · exact .moved _ (s.pc + 1) nofun (.inl rfl)
  | branchZero n =>
    rcases h with ⟨_, rfl⟩ | ⟨_, rfl⟩
    · exact .moved _ n nofun (.inr rfl)
    · exact .moved _ (s.pc + 1) nofun (.inl rfl)
  | halt x => obtain rfl := h; exact .ended x
  | pause x =>
    rcases h with ⟨hs, rfl⟩ | ⟨w, rest, hs, rfl⟩
    · exact .pauseHeld x hs
    · rw [acknowledge_eq]
      simpa using ExecKind.pauseAcked x rest _

/-- Everything a handler can do, by what it writes. -/
theorem execUnder_kind {p : Parameters} {i : Instr} {s t : State} (h : execUnder p i s = .next t) :
    ExecKind p s i t := by
  rcases execUnder_cases p i s t h with ⟨c, rfl⟩ | he
  · rw [State.runtimeFault_eq]
    rcases faultBase_cases i s with e | e
    · rw [e]
      exact .fault i c _ s.answers s.prompted id
    · rw [e]
      simpa [faultedUnder, readTaken] using ExecKind.fault i c _ s.answers.tail false fun _ => rfl
  · exact he.kind

namespace ExecKind

variable {p : Parameters} {i : Instr} {s t : State}

/-- No handler writes what fetch and decode wrote. -/
theorem sameFetched (h : ExecKind p s i t) : SameFetched s t := by
  cases h <;> exact ⟨rfl, rfl, rfl, rfl⟩

/-- Only STORE and READ write memory, at their operand (10_state.md R31). -/
theorem mem_cases (h : ExecKind p s i t) :
    t.mem = s.mem ∨ ∃ a v, (i = .store a ∧ v = s.acc ∨ i = .read a ∧ IsWord v) ∧
      a < p.memSize ∧ t.mem = s.mem.write a v := by
  cases h with
  | stored a ha => exact .inr ⟨a, s.acc, .inl ⟨rfl, rfl⟩, ha, rfl⟩
  | readStored a v rest hs hv ha => exact .inr ⟨a, v, .inr ⟨rfl, hv⟩, ha, rfl⟩
  | _ => exact .inl rfl

/-- Every handler only appends to the history. -/
theorem out_extends (h : ExecKind p s i t) : s.out <+: t.out := by
  cases h <;> simp

/-- An executing core goes on, or its run state changes as 10_state.md R27 lists. -/
theorem runTransition (h : ExecKind p s i t) (hr : s.rs = .executing) :
    t.rs = s.rs ∨ RunTransition s.rs t.rs := by
  cases h with
  | fault => exact .inr (hr ▸ .ended _)
  | ended => exact .inr (hr ▸ .ended _)
  | pauseHeld => exact .inr (hr ▸ .pause)
  | pauseAcked => exact .inl hr.symm
  | _ => exact .inl rfl

end ExecKind

/-! ### The run state over a step -/

/-- Entry goes on, ends, or faults (70_reset_and_hazards.md R256 to R258). -/
theorem enterValue_runTransition (p : Parameters) (v : Int) (s : State) (hr : s.rs = .loading) :
    (enterValue p v s).rs = s.rs ∨ RunTransition s.rs (enterValue p v s).rs := by
  rcases enterValue_cases p v s with ⟨_, e⟩ | ⟨_, _, _, e⟩ | ⟨_, _, _, e⟩ | ⟨_, _, e⟩ <;> rw [e]
  · exact .inr (hr ▸ .endOfEntry)
  · exact .inl rfl
  · exact .inr (hr ▸ .loadFault _)
  · exact .inr (hr ▸ .loadFault _)

/-- A READ that goes on stores and executes on, or faults (41_io.md R120, R121). -/
theorem finishRead_runTransition (p : Parameters) (a v : Int) (s : State) (hr : s.rs = .executing) :
    (finishRead p a v s).rs = s.rs ∨ RunTransition s.rs (finishRead p a v s).rs := by
  rcases finishRead_cases p a v s with ⟨_, _, e⟩ | ⟨_, _, e⟩ | ⟨_, e⟩ <;> rw [e]
  · exact .inl rfl
  · exact .inr (hr ▸ .ended _)
  · exact .inr (hr ▸ .ended _)

/-- The run state over a step under any parameters, from whatever state. -/
theorem stepUnder_runTransition {p : Parameters} {s t : State} (h : stepUnder p s = .next t) :
    t.rs = s.rs ∨ RunTransition s.rs t.rs := by
  cases stepUnder_cases p s t h with
  | rest | wait => exact .inl rfl
  | runEntry hf =>
    right
    rcases hf with hf | ⟨r, hf⟩
    · exact hf ▸ .startEntry
    · exact hf ▸ .restartEntry r
  | runImage hf =>
    right
    rcases hf with hf | ⟨r, hf⟩
    · exact hf ▸ .startImage
    · exact hf ▸ .restartImage r
  | entryHold => rw [State.promptEntry_eq]; exact .inl rfl
  | entryValue hr v rest =>
    rw [State.promptEntry_eq]
    exact enterValue_runTransition p v _ hr
  | acknowledged hr => rw [acknowledge_eq]; exact .inr (hr ▸ .acknowledged)
  | readAnswered hr _ v rest => exact finishRead_runTransition p s.opd v (s.takeAnswer rest) hr
  | fellOff hr => rw [State.fallOff_rs]; exact .inr (hr ▸ .ended _)
  | illegal hr => exact .inr (hr ▸ .ended _)
  | ran hr _ _ i _ _ hx => exact (execUnder_kind hx).runTransition (s := s.fetch) hr

/-- Settles O49: the step of this hardware is a step under its parameters. -/
theorem runStateChangesOnlyAsListed : Obligations.RunStateChangesOnlyAsListed :=
  fun s _ h => stepUnder_runTransition ((step_eq s).symm.trans h)

/-! ### The history over a step -/

theorem enterValue_out_extends (p : Parameters) (v : Int) (s : State) :
    s.out <+: (enterValue p v s).out := by
  rcases enterValue_cases p v s with ⟨_, e⟩ | ⟨_, _, _, e⟩ | ⟨_, _, _, e⟩ | ⟨_, _, e⟩ <;> simp [e]

theorem finishRead_out_extends (p : Parameters) (a v : Int) (s : State) :
    s.out <+: (finishRead p a v s).out := by
  rcases finishRead_cases p a v s with ⟨_, _, e⟩ | ⟨_, _, e⟩ | ⟨_, e⟩ <;> simp [e]

theorem State.promptEntry_out_extends (s : State) : s.out <+: s.promptEntry.out := by
  unfold State.promptEntry
  split <;> simp

/-- Every step under any parameters only appends to the history. -/
theorem stepUnder_out_extends {p : Parameters} {s t : State} (h : stepUnder p s = .next t) :
    s.out <+: t.out := by
  cases stepUnder_cases p s t h with
  | rest | wait | runEntry | runImage => exact ⟨[], List.append_nil _⟩
  | entryHold => exact s.promptEntry_out_extends
  | entryValue _ v rest =>
    exact s.promptEntry_out_extends.trans (enterValue_out_extends p v (s.promptEntry.takeAnswer rest))
  | acknowledged => rw [acknowledge_eq]; exact ⟨_, rfl⟩
  | readAnswered _ _ v rest => exact finishRead_out_extends p s.opd v (s.takeAnswer rest)
  | fellOff | illegal => simp
  | ran _ _ _ i _ _ hx => exact (execUnder_kind hx).out_extends

/-- Settles O50: the old history stands at the front of the new one. -/
theorem outputHistoryOnlyGrows : Obligations.OutputHistoryOnlyGrows := by
  intro s t h
  obtain ⟨printed, e⟩ := stepUnder_out_extends ((step_eq s).symm.trans h)
  exact ⟨printed, e.symm⟩

/-! ### Memory over a step -/

/-- Where a step of a busy machine may write: entry at `ic`, a READ that holds at `opd`, and a STORE or
READ about to run at its operand (20_memory.md R58). -/
def State.WritesAt (p : Parameters) (s : State) (l : Int) : Prop :=
  (s.rs = .loading ∧ l = s.ic) ∨
  (s.rs = .executing ∧ s.prompted = true ∧ l = s.opd) ∨
  (s.rs = .executing ∧ s.prompted = false ∧ ∃ a : Nat, l = a ∧
    (p.opcodes.decode (s.mem.read s.pc) = .instr (.store a) ∨
      p.opcodes.decode (s.mem.read s.pc) = .instr (.read a)))

/-- A step of a busy machine writes one cell at most, and the state says which. -/
theorem stepUnder_mem_cases {p : Parameters} {s t : State} (h : stepUnder p s = .next t) :
    s.rs.Free ∨ t.mem = s.mem ∨
      ∃ l v, s.WritesAt p l ∧ 0 ≤ l ∧ t.mem = s.mem.write l.toNat v := by
  cases stepUnder_cases p s t h with
  | rest hf | runEntry hf | runImage hf => exact .inl hf
  | wait => exact .inr (.inl rfl)
  | entryHold => rw [State.promptEntry_eq]; exact .inr (.inl rfl)
  | entryValue hr v rest =>
    rw [State.promptEntry_eq]
    rcases enterValue_cases p v (State.takeAnswer _ rest) with
      ⟨_, e⟩ | ⟨_, _, _, e⟩ | ⟨_, _, _, e⟩ | ⟨_, _, e⟩ <;> rw [e]
    · exact .inr (.inl rfl)
    · exact .inr (.inr ⟨s.ic, v, .inl ⟨hr, rfl⟩, Int.natCast_nonneg _, rfl⟩)
    · exact .inr (.inl rfl)
    · exact .inr (.inl rfl)
  | acknowledged => rw [acknowledge_eq]; exact .inr (.inl rfl)
  | readAnswered hr hp v rest =>
    rcases finishRead_cases p s.opd v (s.takeAnswer rest) with
      ⟨_, ha, e⟩ | ⟨_, _, e⟩ | ⟨_, e⟩ <;> rw [e]
    · exact .inr (.inr ⟨s.opd, v, .inr (.inl ⟨hr, hp, rfl⟩), ha.1, rfl⟩)
    · exact .inr (.inl rfl)
    · exact .inr (.inl rfl)
  | fellOff => exact .inr (.inl (State.fallOff_mem p s))
  | illegal => exact .inr (.inl rfl)
  | ran hr hp _ i _ hd hx =>
    rcases (execUnder_kind hx).mem_cases with e | ⟨a, v, hi, _, e⟩
    · exact .inr (.inl e)
    · have hop := hi.imp (fun e => e.1 ▸ hd) (fun e => e.1 ▸ hd)
      exact .inr (.inr ⟨a, v, .inr (.inr ⟨hr, hp, a, rfl, hop⟩), Int.natCast_nonneg a, e⟩)

/-- A location that reads otherwise after a step of a busy machine is the one the state says. -/
theorem stepUnder_writesAt {p : Parameters} {s t : State} {l : Int} (h : stepUnder p s = .next t)
    (hl : t.getUnder p l ≠ s.getUnder p l) : s.rs.Free ∨ s.WritesAt p l := by
  rcases stepUnder_mem_cases h with hf | e | ⟨a, v, hw, ha, e⟩
  · exact .inl hf
  · exact absurd (sameCells_of_mem_eq p e l) hl
  · by_cases hla : l = a
    · exact .inr (hla ▸ hw)
    · exact absurd (sameCellsBut_of_mem_write p ha v e l hla) hl

/-- Settles O51: `WritesAt` at this hardware's parameters. -/
theorem onlyRunsEntryStoreAndReadWriteMemory : Obligations.OnlyRunsEntryStoreAndReadWriteMemory :=
  fun s _ _ h hl => stepUnder_writesAt ((step_eq s).symm.trans h) hl

/-! ### The instruction counter over a step -/

theorem RunState.Free.not_busy {r : RunState} (h : r.Free) : ¬r.Busy := by
  rcases h with rfl | ⟨_, rfl⟩ <;> simp [RunState.Busy]

/-- Entry counts a stored word, and nothing else (70_reset_and_hazards.md R256 to R258). -/
theorem enterValue_ic (p : Parameters) (v : Int) (s : State) :
    (enterValue p v s).ic = s.ic ∨ (enterValue p v s).ic = s.ic + 1 := by
  rcases enterValue_cases p v s with ⟨_, e⟩ | ⟨_, _, _, e⟩ | ⟨_, _, _, e⟩ | ⟨_, _, e⟩ <;> rw [e]
  · exact .inl rfl
  · exact .inr rfl
  · exact .inl rfl
  · exact .inl rfl

theorem finishRead_ic (p : Parameters) (a v : Int) (s : State) : (finishRead p a v s).ic = s.ic := by
  rcases finishRead_cases p a v s with ⟨_, _, e⟩ | ⟨_, _, e⟩ | ⟨_, e⟩ <;> rw [e] <;> rfl

/-- A step of a busy machine leaves `ic` or counts one. -/
theorem stepUnder_ic_of_busy {p : Parameters} {s t : State} (h : stepUnder p s = .next t)
    (hb : s.rs.Busy) : t.ic = s.ic ∨ t.ic = s.ic + 1 := by
  cases stepUnder_cases p s t h with
  | rest hf | runEntry hf | runImage hf => exact absurd hb (RunState.Free.not_busy hf)
  | wait => exact .inl rfl
  | entryHold => rw [State.promptEntry_eq]; exact .inl rfl
  | entryValue _ v rest =>
    rw [State.promptEntry_eq]
    exact enterValue_ic p v (State.takeAnswer _ rest)
  | acknowledged => rw [acknowledge_eq]; exact .inl rfl
  | readAnswered _ _ v rest => exact .inl (finishRead_ic p s.opd v (s.takeAnswer rest))
  | fellOff => exact .inl (State.fallOff_ic p s)
  | illegal => exact .inr rfl
  | ran _ _ _ i _ _ hx =>
    obtain ⟨_, _, _, hic⟩ := (execUnder_kind hx).sameFetched
    exact .inr hic

/-- A step that fetches counts one (40_cycle.md R103), whatever the fetched word then does. -/
theorem stepUnder_ic_of_aboutToFetch {p : Parameters} {s t : State} {w : Int}
    (h : stepUnder p s = .next t) (hw : AboutToFetchUnder p s w) : t.ic = s.ic + 1 := by
  obtain ⟨hr, hp, hopc, hpc, _⟩ := hw
  have hl : ¬s.LoopEnds p := not_or.mpr ⟨hopc, hpc.not_ge⟩
  have hc : cycle p (execUnder p) s = .next t := (stepWith_cycle p _ s hr hp).symm.trans h
  rcases cycle_cases p (execUnder p) s with ⟨he, _⟩ | ⟨_, _, e⟩ | ⟨i, _, _, e⟩
  · exact absurd he hl
  · injection e.symm.trans hc with e
    exact e ▸ rfl
  · obtain ⟨_, _, _, hic⟩ := (execUnder_kind (e.symm.trans hc)).sameFetched
    exact hic

/-- Settles O53: the two lemmas on `ic`, at this hardware's parameters. -/
theorem instructionCounterCountsFetches : Obligations.InstructionCounterCountsFetches := by
  intro s t h
  rw [step_eq] at h
  refine ⟨fun hb => ?_, fun w hw => stepUnder_ic_of_aboutToFetch h hw⟩
  have hic := stepUnder_ic_of_busy h hb
  omega

/-! ### A free machine -/

theorem stepUnder_free (p : Parameters) {s : State} (hf : s.rs.Free) : stepUnder p s = restStep p s := by
  rcases hf with hr | ⟨r, hr⟩
  · exact stepWith_idle p _ s hr
  · exact stepWith_halted p _ s r hr

/-- Settles O17: the step of a free machine is `restStep`, which looks at the requests only. -/
theorem freeMachineMovesOnlyByARequest : Obligations.FreeMachineMovesOnlyByARequest := by
  intro s hf
  rw [step_eq, stepUnder_free hardware hf]
  exact ⟨fun hq => by simp only [restStep, hq], fun q rest hq => by simp only [restStep, hq, startRun_eq]⟩

/-! ### The invariant, in two halves -/

/-- The clauses of the invariant that hold in every run state: acc, ir and the cells hold Words, `opc` and
`opd` the decoded `ir`, and the pc is bounded (10_state.md R21 to R28). -/
structure State.DataInv (p : Parameters) (s : State) : Prop where
  /-- acc holds a Word -/
  accWord : IsWord s.acc
  /-- ir holds a Word -/
  irWord : IsWord s.ir
  /-- `opc` and `opd` hold the decoded `ir` -/
  decoded : (s.opc, s.opd) = splitWord s.ir
  /-- the cells hold Words, at locations of memory, in canonical form -/
  memSound : s.mem.Sound p
  /-- the pc is in 0..max(N, 100) -/
  pcBound : s.pc ≤ max p.memSize (Config.operandMax + 1)

/-- The clauses of the invariant that say where each run state stands (10_state.md R27, R38). -/
structure State.ModeInv (p : Parameters) (s : State) : Prop where
  /-- before the first Run everything is 0 -/
  idleZero : s.rs = .idle → s.RegistersZero ∧ s.mem = []
  /-- during entry only `ic` has moved -/
  loadingZero : s.rs = .loading → s.acc = 0 ∧ s.pc = 0 ∧ s.ir = 0 ∧ s.ic ≤ p.memSize
  /-- no cycle starts with HALT decoded -/
  notHalt : s.rs = .executing → s.opc ≠ p.opcodes.haltCode
  /-- Paused stands at a PAUSE -/
  pausedAt : s.rs = .paused → s.opc = p.opcodes.code .pause ∧ s.pc < p.memSize
  /-- a prompt is open only in entry or in a READ -/
  promptedAt : s.prompted = true →
    s.rs = .loading ∨ (s.rs = .executing ∧ s.opc = p.opcodes.code .read ∧ s.pc < p.memSize)

/-- The two halves are the invariant. -/
theorem State.invUnder_iff (p : Parameters) (s : State) :
    s.InvUnder p ↔ s.DataInv p ∧ s.ModeInv p := by
  constructor
  · intro h
    exact ⟨⟨h.accWord, h.irWord, h.decoded, ⟨h.cellWord, h.cellLoc, h.canonical⟩, h.pcBound⟩,
      ⟨h.idleZero, h.loadingZero, h.notHalt, h.pausedAt, h.promptedAt⟩⟩
  · rintro ⟨⟨hacc, hir, hdec, ⟨hword, hloc, hcan⟩, hpc⟩, ⟨hidle, hload, hhalt, hpause, hprompt⟩⟩
    exact ⟨hacc, hir, hdec, hword, hloc, hcan, hpc, hidle, hload, hhalt, hpause, hprompt⟩

namespace State.DataInv

variable {p : Parameters} {s t : State}

/-- Whatever leaves ir, opc and opd alone owes only the new acc, memory and pc. -/
theorem of_sameDecoded (h : s.DataInv p) (hir : t.ir = s.ir) (hopc : t.opc = s.opc)
    (hopd : t.opd = s.opd) (hacc : IsWord t.acc) (hmem : t.mem.Sound p)
    (hpc : t.pc ≤ max p.memSize (Config.operandMax + 1)) : t.DataInv p :=
  ⟨hacc, hir ▸ h.irWord, by rw [hopc, hopd, hir, h.decoded], hmem, hpc⟩

/-- The other fields play no part. -/
theorem update (h : s.DataInv p) (ic : Nat) (rs : RunState) (out : List OutEvent) (prompted : Bool)
    (answers : List Int) (acks : List Bool) (requests : List RunRequest) :
    ({ s with ic, rs, out, prompted, answers, acks, requests } : State).DataInv p :=
  ⟨h.accWord, h.irWord, h.decoded, h.memSound, h.pcBound⟩

theorem fetch (h : s.DataInv p) : s.fetch.DataInv p :=
  ⟨h.accWord, h.memSound.read_isWord s.pc, rfl, h.memSound, h.pcBound⟩

/-- A fresh run starts from Words (70_reset_and_hazards.md R252, R253). -/
theorem fresh (p : Parameters) (s : State) : s.fresh.DataInv p :=
  ⟨(by decide : IsWord 0), (by decide : IsWord 0), rfl, .nil, Nat.zero_le _⟩

end State.DataInv

namespace State.ModeInv

variable {p : Parameters} {s : State}

theorem of_halted {r : HaltReason} (hr : s.rs = .halted r) (hp : s.prompted = false) :
    s.ModeInv p := by
  constructor <;> simp [hr, hp]

theorem of_executing (hr : s.rs = .executing) (hp : s.prompted = false)
    (ho : s.opc ≠ p.opcodes.haltCode) : s.ModeInv p := by
  constructor <;> simp [hr, hp, ho]

theorem of_paused (hr : s.rs = .paused) (hp : s.prompted = false)
    (ho : s.opc = p.opcodes.code .pause) (hpc : s.pc < p.memSize) : s.ModeInv p := by
  constructor <;> simp [hr, hp, ho, hpc]

theorem of_loading (hr : s.rs = .loading)
    (hz : s.acc = 0 ∧ s.pc = 0 ∧ s.ir = 0 ∧ s.ic ≤ p.memSize) : s.ModeInv p := by
  constructor <;> simp [hr, hz]

/-- READ is not HALT, so a READ may hold. -/
theorem of_reading (hr : s.rs = .executing) (ho : s.opc = p.opcodes.code .read)
    (hpc : s.pc < p.memSize) : s.ModeInv p := by
  have hne : p.opcodes.code .read ≠ p.opcodes.haltCode := fun e => by
    simpa using p.opcodes.injective _ _ e
  constructor <;> simp [hr, ho, hpc, hne]

end State.ModeInv

/-! ### The invariant over an instruction -/

/-- An instruction other than HALT leaves no HALT decoded. -/
theorem ne_haltCode {p : Parameters} {opc : Int} {op : Op} (ho : opc = p.opcodes.code op)
    (hop : op ≠ .halt) : opc ≠ p.opcodes.haltCode :=
  fun e => hop (p.opcodes.injective _ _ (ho.symm.trans e))

/-- 0 is no opcode (30_encoding.md R79), so what a Run zeroes shows no HALT. -/
theorem zero_ne_haltCode (p : Parameters) : 0 ≠ p.opcodes.haltCode := fun e =>
  absurd (e ▸ p.opcodes.inSet .halt : (0 : Int) ∈ opcodeSet) (by decide)

/-- The operand field of a word has two digits (30_encoding.md R73, R74). -/
theorem splitWord_operand_le (w : Int) : (splitWord w).2.toNat ≤ Config.operandMax := by
  rcases le_total 0 w with h | h
  · simp only [splitWord_of_nonneg w h, Config.operandMax]
    omega
  · simp only [splitWord_of_nonpos w h, Config.operandMax]
    omega

namespace ExecKind

variable {p : Parameters} {i : Instr} {s t : State}

theorem acc_isWord (h : ExecKind p s i t) (hs : s.DataInv p) : IsWord t.acc := by
  cases h with
  | calculated _ v _ hv => exact hv hs.accWord hs.memSound.read_isWord
  | stored => exact (by decide : IsWord 0)
  | _ => exact hs.accWord

theorem mem_sound (h : ExecKind p s i t) (hs : s.DataInv p) : t.mem.Sound p := by
  rcases h.mem_cases with e | ⟨a, v, hv, ha, e⟩ <;> rw [e]
  · exact hs.memSound
  · rcases hv with ⟨_, rfl⟩ | ⟨_, hv⟩
    · exact hs.memSound.write ha hs.accWord
    · exact hs.memSound.write ha hv

theorem pc_cases (h : ExecKind p s i t) : t.pc ≤ s.pc + 1 ∨ t.pc = i.operand := by
  cases h with
  | moved _ n _ hn => exact hn.imp Nat.le_of_eq id
  | _ => exact .inl (by simp)

/-- An instruction fetched from memory keeps the data half, by `sameFetched` and the three lemmas above. -/
theorem dataInv (h : ExecKind p s i t) (hs : s.DataInv p) (hpc : s.pc < p.memSize)
    (hop : i.operand ≤ Config.operandMax) : t.DataInv p := by
  obtain ⟨hir, hopc, hopd, _⟩ := h.sameFetched
  have ht : t.pc ≤ max p.memSize (Config.operandMax + 1) := by
    have := h.pc_cases
    omega
  exact hs.of_sameDecoded hir hopc hopd (h.acc_isWord hs) (h.mem_sound hs) ht

/-- An instruction just decoded from memory, with no prompt open, keeps the other half. -/
theorem modeInv (h : ExecKind p s i t) (hr : s.rs = .executing) (hp : s.prompted = false)
    (ho : s.opc = p.opcodes.code i.op) (hpc : s.pc < p.memSize) : t.ModeInv p := by
  cases h with
  | fault _ c printed answers prompted hp' => exact .of_halted rfl (hp' hp)
  | calculated _ v hi => exact .of_executing hr hp (ne_haltCode ho hi)
  | stored a => exact .of_executing hr hp (ne_haltCode ho nofun)
  | readHeld => exact .of_reading hr ho hpc
  | readStored a v rest => exact .of_executing hr rfl (ne_haltCode ho nofun)
  | wrote a => exact .of_executing hr hp (ne_haltCode ho nofun)
  | moved _ n hi => exact .of_executing hr hp (ne_haltCode ho hi)
  | ended => exact .of_halted rfl hp
  | pauseHeld => exact .of_paused rfl hp ho hpc
  | pauseAcked => exact .of_executing rfl hp (ne_haltCode ho nofun)

end ExecKind

/-- A cycle's instruction keeps the invariant. -/
theorem ran_invUnder {p : Parameters} {s t : State} {i : Instr} (hs : s.DataInv p)
    (hr : s.rs = .executing) (hp : s.prompted = false) (hl : ¬s.LoopEnds p)
    (hd : p.opcodes.decode (s.mem.read s.pc) = .instr i) (hx : execUnder p i s.fetch = .next t) :
    t.InvUnder p := by
  have hpc : s.pc < p.memSize := Nat.lt_of_not_le fun h => hl (.inr h)
  obtain ⟨hopc, hopd⟩ := (p.opcodes.decode_eq_instr _ i).mp hd
  have hk := execUnder_kind hx
  exact (State.invUnder_iff p t).mpr
    ⟨hk.dataInv hs.fetch hpc (hopd ▸ splitWord_operand_le _), hk.modeInv hr hp hopc hpc⟩

/-! ### The invariant over the other steps -/

/-- The entry of one console integer keeps the invariant (70_reset_and_hazards.md R256 to R258). -/
theorem enterValue_invUnder {p : Parameters} {s : State} (v : Int) (hs : s.InvUnder p)
    (hr : s.rs = .loading) (hp : s.prompted = false) : (enterValue p v s).InvUnder p := by
  obtain ⟨hd, hm⟩ := (State.invUnder_iff p s).mp hs
  obtain ⟨hacc, hpc, hir, hic⟩ := hm.loadingZero hr
  rw [State.invUnder_iff]
  rcases enterValue_cases p v s with ⟨_, e⟩ | ⟨_, hv, hi, e⟩ | ⟨_, _, _, e⟩ | ⟨_, _, e⟩ <;> rw [e]
  · have hopc : s.opc = 0 := by
      have hdec := hd.decoded
      rw [hir] at hdec
      exact congrArg Prod.fst hdec
    exact ⟨hd.update ..,
      .of_executing rfl hp (hopc ▸ zero_ne_haltCode p)⟩
  · exact ⟨hd.of_sameDecoded rfl rfl rfl hd.accWord (hd.memSound.write hi hv) hd.pcBound,
      .of_loading hr ⟨hacc, hpc, hir, hi⟩⟩
  · exact ⟨hd.update .., .of_halted rfl hp⟩
  · exact ⟨hd.update .., .of_halted rfl hp⟩

/-- A READ that goes on keeps the invariant (41_io.md R120, R121). -/
theorem finishRead_invUnder {p : Parameters} {s : State} (a v : Int) (hd : s.DataInv p)
    (hr : s.rs = .executing) (hp : s.prompted = false) (ho : s.opc = p.opcodes.code .read)
    (hpc : s.pc < p.memSize) : (finishRead p a v s).InvUnder p := by
  rw [State.invUnder_iff]
  rcases finishRead_cases p a v s with ⟨hv, ha, e⟩ | ⟨_, _, e⟩ | ⟨_, e⟩ <;> rw [e]
  · have hloc : a.toNat < p.memSize := by obtain ⟨h0, hN⟩ := ha; omega
    exact ⟨hd.of_sameDecoded rfl rfl rfl hd.accWord (hd.memSound.write hloc hv)
        (le_max_of_le_left hpc),
      .of_executing hr hp (ne_haltCode ho nofun)⟩
  · exact ⟨hd.update .., .of_halted rfl hp⟩
  · exact ⟨hd.update .., .of_halted rfl hp⟩

/-- A PAUSE that goes on keeps the invariant (45_halt_pause.md R176): no prompt is open in Paused. -/
theorem acknowledge_invUnder {p : Parameters} {s : State} (w : Bool) (hs : s.InvUnder p)
    (hr : s.rs = .paused) : (acknowledge p w s).InvUnder p := by
  obtain ⟨hd, hm⟩ := (State.invUnder_iff p s).mp hs
  obtain ⟨ho, hpc⟩ := hm.pausedAt hr
  have hp : s.prompted = false := by
    rw [Bool.eq_false_iff]
    intro h
    simpa [hr] using hm.promptedAt h
  rw [State.invUnder_iff, acknowledge_eq]
  exact ⟨hd.of_sameDecoded rfl rfl rfl hd.accWord hd.memSound (le_max_of_le_left hpc),
    .of_executing rfl hp (ne_haltCode ho nofun)⟩

/-- `Run(image)` establishes the invariant, its words being Words (70_reset_and_hazards.md R259, R260). -/
theorem State.runImage_invUnder (p : Parameters) (s : State) {img : Image}
    (hw : firstNonWord img.words = none) : (s.runImage p img).InvUnder p := by
  have hf := DataInv.fresh p s
  have hmem := hf.memSound.loadFrom ((firstNonWord_eq_none _).mp hw) 0
  exact (invUnder_iff p _).mpr ⟨hf.of_sameDecoded rfl rfl rfl hf.accWord hmem hf.pcBound,
    .of_executing rfl rfl (zero_ne_haltCode p)⟩

/-- `Run()` establishes the invariant (70_reset_and_hazards.md R255). -/
theorem State.runEntry_invUnder (p : Parameters) (s : State) : s.runEntry.InvUnder p := by
  exact (invUnder_iff p _).mpr
    ⟨(DataInv.fresh p s).update .., .of_loading rfl ⟨rfl, rfl, rfl, Nat.zero_le _⟩⟩

/-- Every step keeps the invariant, under any parameters. -/
theorem stepUnder_invUnder {p : Parameters} {s t : State} (hs : s.InvUnder p)
    (h : stepUnder p s = .next t) : t.InvUnder p := by
  obtain ⟨hd, hm⟩ := (State.invUnder_iff p s).mp hs
  cases stepUnder_cases p s t h with
  | rest | wait => exact hs
  | runEntry _ rest => exact State.runEntry_invUnder p _
  | runImage _ img rest _ hw => exact State.runImage_invUnder p _ hw
  | entryHold hr =>
    rw [State.promptEntry_eq, State.invUnder_iff]
    exact ⟨hd.update ..,
      .of_loading hr (hm.loadingZero hr)⟩
  | entryValue hr v rest =>
    rw [State.promptEntry_eq]
    refine enterValue_invUnder v ((State.invUnder_iff p _).mpr ⟨?_, ?_⟩) hr rfl
    · exact hd.update ..
    · exact .of_loading hr (hm.loadingZero hr)
  | acknowledged hr w rest =>
    refine acknowledge_invUnder w ((State.invUnder_iff p _).mpr ⟨?_, ?_⟩) hr
    · exact hd.update ..
    · exact ⟨hm.idleZero, hm.loadingZero, hm.notHalt, hm.pausedAt, hm.promptedAt⟩
  | readAnswered hr hp v rest =>
    obtain ⟨_, ho, hpc⟩ := (hm.promptedAt hp).resolve_left (by simp [hr])
    exact finishRead_invUnder s.opd v
      (hd.update ..) hr rfl ho hpc
  | fellOff _ hp =>
    rw [State.fallOff_eq, State.invUnder_iff]
    exact ⟨hd.update .., .of_halted rfl hp⟩
  | illegal _ hp =>
    exact (State.invUnder_iff p _).mpr ⟨hd.fetch.update .., .of_halted rfl hp⟩
  | ran hr hp hl i _ hdec hx => exact ran_invUnder hd hr hp hl hdec hx

/-- Settles O47: the invariant over a step, at this hardware's parameters and at all. -/
theorem stepKeepsTheInvariant : Obligations.StepKeepsTheInvariant :=
  ⟨fun s _ hs h => stepUnder_invUnder hs ((step_eq s).symm.trans h), fun _ _ _ => stepUnder_invUnder⟩

end Sys2Proof.Machine

end

/-! ## Proofs: Get, Put, and the operands that leave memory -/

section

open Sys2Proof.Claims

namespace Sys2Proof.Machine

/-! ### Get after Put -/

/-- Settles O8: inside memory Put is one write, seen at its own location only; outside, neither answers. -/
theorem putIsSeenByGetAndByNothingElse : Obligations.PutIsSeenByGetAndByNothingElse := by
  intro p s a v
  refine ⟨fun ha => ⟨_, s.put_of_inMemory p a v ha, ?_, ?_, rfl⟩, fun ha =>
    ⟨s.put_of_not_inMemory p a v ha, s.get_of_not_inMemory p a ha⟩⟩
  · rw [State.get_of_inMemory p _ a ha, Memory.read_write_self]
  · exact sameCellsBut_of_mem_write p ha.1 v rfl

/-! ### Storing into a location and outside memory -/

/-- A location inside memory is written and the handler goes on (20_memory.md R52). -/
theorem withStored_inMemory (p : Parameters) (s : State) {a : Int} (v : Int) (go : State → State)
    (h : InMemoryUnder p a) :
    withStored p s a v go = go { s with mem := s.mem.write a.toNat v } := by
  rw [withStored, s.put_of_inMemory p a v h, Option.elim_some]

/-- A location outside memory is the fault, with nothing written (20_memory.md R52). -/
theorem withStored_outOfRange (p : Parameters) (s : State) {a : Int} (v : Int) (go : State → State)
    (h : ¬InMemoryUnder p a) : withStored p s a v go = faultedUnder p s (.outOfRange a) := by
  rw [withStored, s.put_of_not_inMemory p a v h, Option.elim_none, State.runtimeFault_eq]

/-- STORE to a location of memory (42_load_store.md R132, R133). -/
theorem execUnder_store_inMemory (p : Parameters) (s : State) {a : Nat} (h : a < p.memSize) :
    execUnder p (.store a) s =
      .next (({ s with mem := s.mem.write a s.acc } : State).setAcc 0).advance :=
  congrArg Host.Outcome.next (withStored_inMemory p s s.acc _ ((inMemory_natCast p a).mpr h))

/-! ### A stored word is fetched -/

/-- What fetch and decode wrote stands at the end of the cycle, whatever the fetched word did. -/
theorem stepUnder_sameFetched_of_aboutToFetch {p : Parameters} {s t : State} {w : Int}
    (h : stepUnder p s = .next t) (hw : AboutToFetchUnder p s w) : SameFetched s.fetch t := by
  obtain ⟨hr, hp, hopc, hpc, _⟩ := hw
  have hl : ¬s.LoopEnds p := not_or.mpr ⟨hopc, hpc.not_ge⟩
  have hc : cycle p (execUnder p) s = .next t := (stepWith_cycle p _ s hr hp).symm.trans h
  rcases cycle_cases p (execUnder p) s with ⟨he, _⟩ | ⟨_, _, e⟩ | ⟨i, _, _, e⟩
  · exact absurd he hl
  · injection e.symm.trans hc with e
    exact e ▸ ⟨rfl, rfl, rfl, rfl⟩
  · exact (execUnder_kind (e.symm.trans hc)).sameFetched

/-- The word at the pc is in `ir` after the step that fetches it (40_cycle.md R103). -/
theorem stepUnder_ir_of_aboutToFetch {p : Parameters} {s t : State} {w : Int}
    (h : stepUnder p s = .next t) (hw : AboutToFetchUnder p s w) : t.ir = w := by
  obtain ⟨hir, _⟩ := stepUnder_sameFetched_of_aboutToFetch h hw
  obtain ⟨_, _, _, _, hread⟩ := hw
  exact hir.trans hread

/-- Settles O26: after the STORE the core is about to fetch the word it stored. -/
theorem storedWordIsTheNextFetched : Obligations.StoredWordIsTheNextFetched := by
  intro s t u hr hp hopc hpc hx hu
  rw [exec_eq, execUnder_store_inMemory hardware s hpc] at hx
  injection hx with hx
  rw [step_eq] at hu
  refine stepUnder_ir_of_aboutToFetch hu ?_
  subst hx
  exact ⟨hr, hp, hopc, hpc, Memory.read_write_self s.mem (s.pc + 1) s.acc⟩

/-! ### An operand inside memory -/

/-- No OutOfRange has ended the run (20_memory.md R55). -/
def State.InRange (s : State) : Prop := ∀ l, s.rs ≠ .halted (.fault (.outOfRange l))

section InRange

variable {p : Parameters} {s : State}

theorem State.InRange.of_executing (h : s.rs = .executing) : s.InRange := fun l => by simp [h]

/-- A fault of another cause. -/
theorem State.InRange.runtimeFault (c : FaultCause) (hc : ∀ l, c ≠ .outOfRange l) :
    (s.runtimeFault p c).InRange := fun l => by simp [hc l]

/-- An operand inside memory leaves only what the handler does with the word. -/
theorem withOperand_inRange {a : Nat} {go : Int → State} (ha : a < p.memSize)
    (hgo : ∀ m, (go m).InRange) : (withOperand p s a go).InRange :=
  withOperand_inMemory p s a go ha ▸ hgo _

/-- The check on a result raises Overflow at most (43_arithmetic.md R141). -/
theorem withResult_inRange (hr : s.rs = .executing) (r : Int) : (withResult p s r).InRange := by
  rcases withResult_cases p s r with ⟨_, e⟩ | ⟨_, e⟩ <;> rw [e]
  · exact .of_executing hr
  · exact .runtimeFault _ nofun

/-- A READ into memory raises InputRange at most (41_io.md R121). -/
theorem finishRead_inRange (hr : s.rs = .executing) {a : Int} (ha : InMemoryUnder p a) (v : Int) :
    (finishRead p a v s).InRange := by
  rcases finishRead_cases p a v s with ⟨_, _, e⟩ | ⟨_, hn, _⟩ | ⟨_, e⟩
  · exact e ▸ .of_executing hr
  · exact absurd ha hn
  · exact e ▸ .runtimeFault _ nofun

/-- A branch goes on, taken or not. -/
theorem State.branchIf_rs (s : State) (taken : Bool) (n : Nat) : (s.branchIf taken n).rs = s.rs := by
  cases taken <;> rfl

/-- An instruction whose operand is a location of memory does not leave memory (20_memory.md R55). -/
theorem execUnder_inRange {i : Instr} {t : State} (hi : i.operand < p.memSize)
    (hr : s.rs = .executing) (h : execUnder p i s = .next t) : t.InRange := by
  cases i with
  | read a =>
    simp only [execUnder, execReadUnder] at h
    split at h <;> injection h with h <;> subst h
    · exact .of_executing hr
    · refine finishRead_inRange ?_ ((inMemory_natCast p a).mpr hi) _
      exact hr
  | write a | load a =>
    injection h with h
    exact h ▸ withOperand_inRange hi fun _ => .of_executing hr
  | store a =>
    injection (execUnder_store_inMemory p s hi).symm.trans h with h
    exact h ▸ .of_executing hr
  | add a | subtract a | multiply a =>
    injection h with h
    exact h ▸ withOperand_inRange hi fun _ => withResult_inRange hr _
  | divide a =>
    injection h with h
    refine h ▸ withOperand_inRange hi fun m => ?_
    split
    · exact .runtimeFault _ nofun
    · exact .of_executing hr
  | branch n =>
    injection h with h
    exact h ▸ .of_executing hr
  | branchNeg n | branchZero n =>
    injection h with h
    exact h ▸ .of_executing ((s.branchIf_rs _ n).trans hr)
  | halt x =>
    injection h with h
    exact h ▸ nofun
  | pause x =>
    simp only [execUnder, execPauseUnder] at h
    split at h <;> injection h with h <;> subst h
    · exact nofun
    · rw [acknowledge_eq]
      exact .of_executing rfl

end InRange

/-! ### An operand outside memory -/

section OutOfRange

variable {p : Parameters} {a : Nat} (s : State) (ha : p.memSize ≤ a)
include ha

theorem not_inMemory_natCast : ¬InMemoryUnder p (a : Int) :=
  (inMemory_natCast p a).not.mpr ha.not_gt

/-- The instructions that access their operand's cell and no console end with OutOfRange there. -/
theorem execUnder_outOfRange {i : Instr}
    (hi : i = .write a ∨ i = .load a ∨ i = .store a ∨ i = .add a ∨ i = .subtract a ∨
      i = .divide a ∨ i = .multiply a) :
    execUnder p i s = .next (faultedUnder p s (.outOfRange a)) := by
  have hread (go : Int → State) : withOperand p s a go = faultedUnder p s (.outOfRange a) :=
    (withOperand_outOfRange p s a go ha).trans (State.runtimeFault_eq p s _)
  rcases hi with rfl | rfl | rfl | rfl | rfl | rfl | rfl
  case inr.inr.inl =>
    exact congrArg Host.Outcome.next (withStored_outOfRange p s s.acc _ (not_inMemory_natCast ha))
  all_goals exact congrArg Host.Outcome.next (hread _)

/-- READ ends with OutOfRange once its prompt is printed and a Word is taken (60_exceptions.md R225). -/
theorem execUnder_read_outOfRange {v : Int} {rest : List Int} (hs : s.answers = v :: rest)
    (hv : IsWord v) :
    execUnder p (.read a) s = .next (faultedUnder p (readTaken s rest) (.outOfRange a)) := by
  have hfinish : finishRead p a v (readTaken s rest) =
      faultedUnder p (readTaken s rest) (.outOfRange a) :=
    (if_pos hv).trans (withStored_outOfRange p _ v _ (not_inMemory_natCast ha))
  simp only [execUnder, execReadUnder, hs]
  exact congrArg Host.Outcome.next hfinish

end OutOfRange

/-- Settles O52: a legal operand is at most 99, so below an N of 100 or more; one of N or more faults. -/
theorem legalOperandsNeverLeaveMemory : Obligations.LegalOperandsNeverLeaveMemory := by
  have legal (p : Parameters) (i : Instr) (s t : State) (l : Int) (hN : Config.operandMax < p.memSize)
      (hi : i.WellFormed) (hr : s.rs = .executing) (h : execUnder p i s = .next t) :
      t.rs ≠ .halted (.fault (.outOfRange l)) :=
    execUnder_inRange (hi.trans_lt hN) hr h l
  refine ⟨fun i s t l hi hr h => ?_, legal, fun p a s ha => ⟨fun i hi => execUnder_outOfRange s ha hi,
    fun v rest hs hv => execUnder_read_outOfRange s ha hs hv⟩⟩
  exact legal hardware i s t l (by decide) hi hr ((exec_eq i s).symm.trans h)

end Sys2Proof.Machine

end

/-! ## Proofs: the codec and the opcode map -/

section

open Sys2Proof.Claims Sys2Proof.Machine

namespace Sys2Proof

/-! ### The two fields of a word -/

/-- Encoding undoes decoding, on every integer (30_encoding.md R78 (c)). -/
theorem joinWord_splitWord (w : Int) : joinWord (splitWord w).1 (splitWord w).2 = w := by
  simp only [joinWord, splitWord]
  omega

/-- Decoding undoes encoding on an opcode and an operand with no sign (30_encoding.md R78 (a)). -/
theorem splitWord_joinWord {c n : Int} (hc : 0 ≤ c) (hn : 0 ≤ n) (hn' : n ≤ Config.operandMax) :
    splitWord (joinWord c n) = (c, n) := by
  simp only [Config.operandMax] at hn'
  have hw : 0 ≤ joinWord c n := by simp only [joinWord]; omega
  have hq : joinWord c n / 100 = c := by simp only [joinWord]; omega
  rw [splitWord_of_nonneg _ hw, hq, Prod.mk.injEq]
  exact ⟨rfl, by simp only [joinWord]; omega⟩

/-- A positive opcode field is that of a positive word, whose operand has no sign. -/
theorem splitWord_operand_nonneg {w : Int} (h : 0 < (splitWord w).1) : 0 ≤ (splitWord w).2 := by
  rcases le_total 0 w with hw | hw
  · simp only [splitWord_of_nonneg w hw]
    omega
  · simp only [splitWord_of_nonpos w hw] at h
    omega

/-- Truncation toward zero, by sign and magnitude (30_encoding.md R74). -/
theorem splitWord_eq_sign_mul (w : Int) :
    splitWord w = (w.sign * ((w.natAbs / 100 : Nat) : Int), w.sign * ((w.natAbs % 100 : Nat) : Int)) := by
  rcases lt_trichotomy w 0 with h | rfl | h
  · rw [splitWord_of_nonpos w h.le, Int.sign_eq_neg_one_of_neg h, Prod.mk.injEq]
    omega
  · rfl
  · rw [splitWord_of_nonneg w h.le, Int.sign_eq_one_of_pos h, Prod.mk.injEq]
    omega

/-- Both fields of a Word have two digits (10_state.md R24, R25). -/
theorem splitWord_bounds {w : Int} (hw : IsWord w) :
    (-99 ≤ (splitWord w).1 ∧ (splitWord w).1 ≤ 99) ∧
      (-99 ≤ (splitWord w).2 ∧ (splitWord w).2 ≤ 99) := by
  simp only [IsWord, Config.wordMax] at hw
  rcases le_total 0 w with h | h
  · simp only [splitWord_of_nonneg w h]
    omega
  · simp only [splitWord_of_nonpos w h]
    omega

/-- Settles O4: sign and magnitude, and the bounds that a Word's magnitude gives. -/
theorem splitWordHasTheSignOfTheWord : Obligations.SplitWordHasTheSignOfTheWord := fun w hw =>
  ⟨congrArg Prod.fst (splitWord_eq_sign_mul w), congrArg Prod.snd (splitWord_eq_sign_mul w),
    splitWord_bounds hw⟩

/-! ### The opcode set -/

/-- The numbers of the set are positive (30_encoding.md R79). -/
theorem pos_of_mem_opcodeSet {c : Int} (h : c ∈ opcodeSet) : 0 < c := by
  simp only [opcodeSet, List.mem_cons, List.not_mem_nil, or_false] at h
  omega

theorem OpcodeAssignment.code_pos (m : OpcodeAssignment) (op : Op) : 0 < m.code op :=
  pos_of_mem_opcodeSet (m.inSet op)

/-- The opcode of a word is in the set in five ranges only (30_encoding.md R75). -/
theorem opcode_mem_opcodeSet_iff (w : Int) : (splitWord w).1 ∈ opcodeSet ↔ LegalWord w := by
  rcases le_total 0 w with h | h
  · simp only [splitWord_of_nonneg w h, LegalWord, opcodeSet, List.mem_cons, List.not_mem_nil, or_false]
    omega
  · simp only [splitWord_of_nonpos w h, LegalWord, opcodeSet, List.mem_cons, List.not_mem_nil, or_false]
    omega

/-- A word whose opcode is in the set lies between the smallest instruction word and the largest
(30_encoding.md R75, R78 (b)). -/
theorem word_bounds_of_opcode_mem {w : Int} (h : (splitWord w).1 ∈ opcodeSet) :
    1000 ≤ w ∧ w ≤ 5199 := by
  have hw := (opcode_mem_opcodeSet_iff w).mp h
  simp only [LegalWord] at hw
  omega

/-- `IsValidWord` by the opcode set alone: a word whose opcode is in it is at least 1000
(30_encoding.md R76). -/
theorem isValidWord_iff (w : Int) : isValidWord w = true ↔ w = 0 ∨ (splitWord w).1 ∈ opcodeSet := by
  have hw (h : (splitWord w).1 ∈ opcodeSet) : 1000 ≤ w := (word_bounds_of_opcode_mem h).1
  simp only [isValidWord, Bool.or_eq_true, beq_iff_eq, Bool.and_eq_true, decide_eq_true_eq,
    List.contains_iff_mem, and_iff_right_of_imp hw]

/-- The word of a number of the set and a two-digit operand (30_encoding.md R78 (a), (b)). -/
theorem joinWord_of_mem_opcodeSet {c n : Int} (hc : c ∈ opcodeSet) (hn : 0 ≤ n)
    (hn' : n ≤ Config.operandMax) :
    splitWord (joinWord c n) = (c, n) ∧ 1000 ≤ joinWord c n ∧ joinWord c n ≤ 5199 ∧
      isValidWord (joinWord c n) = true := by
  have hs : splitWord (joinWord c n) = (c, n) :=
    splitWord_joinWord (pos_of_mem_opcodeSet hc).le hn hn'
  have hset : (splitWord (joinWord c n)).1 ∈ opcodeSet := hs.symm ▸ hc
  obtain ⟨hlo, hhi⟩ := word_bounds_of_opcode_mem hset
  exact ⟨hs, hlo, hhi, (isValidWord_iff _).mpr (.inr hset)⟩

/-- Settles O3: law (c) holds of every integer, so of every Word. -/
theorem codecLawsHold : Obligations.CodecLawsHold :=
  ⟨fun _ hc _ hn hn' => joinWord_of_mem_opcodeSet hc hn hn', fun w _ => joinWord_splitWord w⟩

/-- Settles O5: the ranges of the set, and decode's own use of it. -/
theorem legalWordsAreTheFiveRanges : Obligations.LegalWordsAreTheFiveRanges := by
  intro w hw
  have hset := opcode_mem_opcodeSet_iff w
  have hjoin := joinWord_splitWord w
  have hpos := splitWord_operand_nonneg (w := w)
  obtain ⟨_, _, hopd⟩ := splitWord_bounds hw
  simp only [joinWord] at hjoin
  refine ⟨hset, fun h => ⟨by omega, hpos (pos_of_mem_opcodeSet h), hopd⟩,
    fun h => ⟨?_, fun hmem => ?_⟩, (decode_eq_illegal w).trans hset.not⟩
  · by_contra hopc
    have := hpos (by omega)
    omega
  · have := word_bounds_of_opcode_mem hmem
    omega

/-! ### Decoding and encoding an instruction -/

section Assignment

variable (m : OpcodeAssignment)

/-- The fields of an instruction's word are its opcode and its operand (30_encoding.md R71). -/
theorem OpcodeAssignment.splitWord_encode {i : Instr} (h : i.WellFormed) :
    splitWord (m.encode i) = (m.code i.op, (i.operand : Int)) :=
  splitWord_joinWord (m.code_pos i.op).le (Int.natCast_nonneg _) (Int.ofNat_le.mpr h)

/-- A word that decodes to an instruction has the instruction's fields, the operand without a sign. -/
theorem OpcodeAssignment.splitWord_of_decode {w : Int} {i : Instr} (h : m.decode w = .instr i) :
    splitWord w = (m.code i.op, (i.operand : Int)) := by
  obtain ⟨hopc, hopd⟩ := (m.decode_eq_instr w i).mp h
  have hpos : 0 ≤ (splitWord w).2 := splitWord_operand_nonneg (hopc ▸ m.code_pos i.op)
  exact Prod.ext hopc (by rw [← hopd, Int.toNat_of_nonneg hpos])

/-- Decode and encode are inverse: the words that decode are the words of the well-formed instructions
(30_encoding.md R78, R81, R83). -/
theorem OpcodeAssignment.decode_eq_instr_iff_encode (w : Int) (i : Instr) :
    m.decode w = .instr i ↔ i.WellFormed ∧ m.encode i = w := by
  constructor
  · intro h
    have hs := m.splitWord_of_decode h
    have hle := splitWord_operand_le w
    have hjoin := joinWord_splitWord w
    rw [hs] at hle hjoin
    exact ⟨hle, hjoin⟩
  · rintro ⟨hi, rfl⟩
    rw [m.decode_eq_instr, m.splitWord_encode hi]
    exact ⟨rfl, Int.toNat_natCast _⟩

theorem OpcodeAssignment.decode_encode {i : Instr} (h : i.WellFormed) :
    m.decode (m.encode i) = .instr i :=
  (m.decode_eq_instr_iff_encode _ i).mpr ⟨h, rfl⟩

/-- A word decodes to an instruction exactly when its opcode is in the set (30_encoding.md R82). -/
theorem OpcodeAssignment.exists_decode_eq_instr_iff (w : Int) :
    (∃ i, m.decode w = .instr i) ↔ (splitWord w).1 ∈ opcodeSet := by
  rw [← not_iff_not, ← m.decode_eq_illegal]
  cases m.decode w with
  | instr i => simp
  | illegalOpcode => simp

end Assignment

/-- Settles O1: the fields of the word, and the inverse laws read from right to left. -/
theorem encodedInstructionDecodesToItself : Obligations.EncodedInstructionDecodesToItself :=
  ⟨fun _ hi => ⟨opcodeAssignment.splitWord_encode hi, opcodeAssignment.decode_encode hi⟩,
    fun m _ hi => ⟨m.splitWord_encode hi, m.decode_encode hi⟩⟩

/-- Settles O2: the inverse laws read from left to right. -/
theorem decodedWordIsItsInstructionsEncoding : Obligations.DecodedWordIsItsInstructionsEncoding :=
  ⟨fun w i => (opcodeAssignment.decode_eq_instr_iff_encode w i).mp,
    fun m w i => (m.decode_eq_instr_iff_encode w i).mp⟩

/-- Settles O7: both say that the opcode is in the set, or that the word is 0, whose opcode is not. -/
theorem validWordsAreZeroAndTheExecutableOnes : Obligations.ValidWordsAreZeroAndTheExecutableOnes :=
  ⟨fun w => (isValidWord_iff w).trans
      (or_congr_right (opcodeAssignment.exists_decode_eq_instr_iff w).symm),
    (decode_eq_illegal 0).mpr (by decide)⟩

/-- Settles O6: each of the thirteen words is `encode` of its instruction, by computation. -/
theorem tableWordsDecodeToTheirInstructions : Obligations.TableWordsDecodeToTheirInstructions :=
  have row {w : Int} (i : Instr) (h : i.WellFormed) (e : encode i = w) : decode w = .instr i :=
    e ▸ opcodeAssignment.decode_encode h
  ⟨row (.read 7) (by decide) rfl, row (.write 99) (by decide) rfl, row (.load 0) (by decide) rfl,
    row (.store 9) (by decide) rfl, row (.add 8) (by decide) rfl, row (.subtract 5) (by decide) rfl,
    row (.divide 6) (by decide) rfl, row (.multiply 50) (by decide) rfl,
    row (.branch 2) (by decide) rfl, row (.branchNeg 10) (by decide) rfl,
    row (.branchZero 20) (by decide) rfl, row (.halt 37) (by decide) rfl,
    row (.pause 99) (by decide) rfl⟩

end Sys2Proof

end

/-! ## Proofs: the step of a legal word -/

section

open Sys2Proof.Claims

namespace Sys2Proof.Machine

/-- Fetch and decode leave what `fetched` writes out (40_cycle.md R103, R104). -/
theorem State.fetch_eq_fetched {s : State} {w : Int} (h : s.mem.read s.pc = w) :
    s.fetch = fetched s w := by
  subst h
  rfl

/-- A step that fetches a legal word runs its instruction, whatever the handlers are
(40_cycle.md R101). -/
theorem stepWith_of_decode {p : Parameters} (run : Instr → State → Result) {s : State}
    {w : Int} {i : Instr} (hw : AboutToFetchUnder p s w) (hd : p.opcodes.decode w = .instr i) :
    stepWith p run s = run i (fetched s w) := by
  obtain ⟨hr, hp, hopc, hpc, hread⟩ := hw
  have hl : ¬s.LoopEnds p := not_or.mpr ⟨hopc, hpc.not_ge⟩
  have hfetch := State.fetch_eq_fetched hread
  have hd' : p.opcodes.decode (fetched s w).ir = .instr i := hd
  rw [stepWith_cycle p run s hr hp, cycle, if_neg hl, hfetch, dispatchFetched, hd']

/-- Settles O22: `stepWith_of_decode` for the handlers of this hardware and for those under any
parameters, which agree. -/
theorem stepRunsTheDecodedInstruction : Obligations.StepRunsTheDecodedInstruction :=
  ⟨fun _ _ _ hw hd => stepWith_of_decode (p := hardware) exec hw hd,
    fun p _ _ _ hw hd => stepWith_of_decode (execUnder p) hw hd, exec_eq, step_eq⟩

end Sys2Proof.Machine

end

/-! ## Proofs: the written form of words -/

section

namespace Sys2Proof.Machine

/-! ### Decimal digits -/

theorem digitValue_digitChar {d : Nat} (h : d < 10) : digitValue (digitChar d) = some d := by
  interval_cases d <;> rfl

theorem digitChar_ne_space {d : Nat} (h : d < 10) : digitChar d ≠ ' ' := by
  interval_cases d <;> decide

/-- A digit read on: the value so far moves one decimal place up. -/
theorem readDigits_digitChar {d : Nat} (h : d < 10) (n : Nat) (cs : Text) :
    readDigits n (digitChar d :: cs) = readDigits (10 * n + d) cs := by
  rw [readDigits, digitValue_digitChar h]

/-- A two-digit operand reads back. -/
theorem readLocation_twoDigits {n : Nat} (h : n ≤ Config.operandMax) :
    readLocation [digitChar (n / 10 % 10), digitChar (n % 10)] = some n := by
  simp only [Config.operandMax] at h
  have hn : 10 * (10 * 0 + n / 10 % 10) + n % 10 = n := by omega
  rw [readLocation, readDigits_digitChar (Nat.mod_lt _ (by decide)),
    readDigits_digitChar (Nat.mod_lt _ (by decide)), hn, readDigits]

/-- A four-digit magnitude reads back. -/
theorem readMagnitude_fourDigits {n : Nat} (h : n ≤ 9999) :
    readMagnitude [digitChar (n / 1000 % 10), digitChar (n / 100 % 10), digitChar (n / 10 % 10),
      digitChar (n % 10)] = some n := by
  have hn : 10 * (10 * (10 * (10 * 0 + n / 1000 % 10) + n / 100 % 10) + n / 10 % 10) + n % 10 = n := by
    omega
  rw [readMagnitude, if_pos (by simp), readLocation, readDigits_digitChar (Nat.mod_lt _ (by decide)),
    readDigits_digitChar (Nat.mod_lt _ (by decide)), readDigits_digitChar (Nat.mod_lt _ (by decide)),
    readDigits_digitChar (Nat.mod_lt _ (by decide)), hn, readDigits]

/-! ### Names and spaces -/

/-- A text with no space is cut off at the first space after it. -/
theorem splitAtSpace_append {name : Text} (h : ' ' ∉ name) (rest : Text) :
    splitAtSpace (name ++ ' ' :: rest) = some (name, rest) := by
  induction name with
  | nil => rfl
  | cons c name ih =>
    obtain ⟨hc, hname⟩ := not_or.mp (List.mem_cons.not.mp h)
    rw [List.cons_append, splitAtSpace, if_neg (Ne.symm hc), ih hname, Option.map_some]

theorem splitAtSpace_eq_none {t : Text} (h : ' ' ∉ t) : splitAtSpace t = none := by
  induction t with
  | nil => rfl
  | cons c t ih =>
    obtain ⟨hc, ht⟩ := not_or.mp (List.mem_cons.not.mp h)
    rw [splitAtSpace, if_neg (Ne.symm hc), ih ht, Option.map_none]

theorem space_not_mem_opName (op : Op) : ' ' ∉ opName op := by cases op <;> decide

/-- No two operations share a name (30_encoding.md R80). -/
theorem opNamed_opName (op : Op) : opNamed (opName op) = some op := by cases op <;> rfl

/-- No name begins as a written data word does. -/
theorem opNamed_sign {c : Char} (hc : c = '+' ∨ c = '-') (ds : Text) : opNamed (c :: ds) = none := by
  have hname (op : Op) : (opName op).head? ≠ some '+' ∧ (opName op).head? ≠ some '-' := by
    cases op <;> decide
  rw [opNamed, List.find?_eq_none]
  intro op _ h
  have hhead : (opName op).head? = some c := by rw [beq_iff_eq.mp h, List.head?_cons]
  rcases hc with rfl | rfl
  · exact (hname op).1 hhead
  · exact (hname op).2 hhead

/-! ### Data words -/

theorem space_not_mem_writeWord (w : Int) : ' ' ∉ writeWord w := by
  have hd (n : Nat) : ' ' ≠ digitChar (n % 10) := (digitChar_ne_space (Nat.mod_lt n (by decide))).symm
  have hs : ' ' ≠ if w < 0 then '-' else '+' := by split <;> decide
  simp only [writeWord, List.mem_cons, hs, hd, List.not_mem_nil, or_self, not_false_eq_true]

/-- The sign and the four digits of a Word read back (46_image_patch.md R211). -/
theorem readWord_writeWord {w : Int} (h : IsWord w) : readWord (writeWord w) = some w := by
  simp only [IsWord, Config.wordMax] at h
  have hm := readMagnitude_fourDigits (n := w.natAbs) (by omega)
  unfold writeWord
  split
  · simp only [readWord, hm]
    exact congrArg some (show -(w.natAbs : Int) = w by omega)
  · simp only [readWord, hm]
    exact congrArg some (show (w.natAbs : Int) = w by omega)

/-- A written data word is no instruction's line and reads as its number (30_encoding.md R86). -/
theorem readWrittenUnder_writeWord (m : OpcodeAssignment) {w : Int} (h : IsWord w) :
    readWrittenUnder m (writeWord w) = some w := by
  have hname : opNamed (writeWord w) = none := opNamed_sign (by split <;> simp) _
  simp only [readWrittenUnder, splitAtSpace_eq_none (space_not_mem_writeWord w), hname,
    readWord_writeWord h]

/-! ### Instructions -/

/-- A name and a two-digit operand denote the operation's word (30_encoding.md R86). -/
theorem readWrittenUnder_operand (m : OpcodeAssignment) (op : Op) {n : Nat}
    (h : n ≤ Config.operandMax) :
    readWrittenUnder m (opName op ++ [' ', digitChar (n / 10 % 10), digitChar (n % 10)]) =
      some (joinWord (m.code op) n) := by
  simp only [readWrittenUnder, splitAtSpace_append (space_not_mem_opName op), opNamed_opName,
    readLocation_twoDigits h, List.length_cons, List.length_nil, Nat.reduceAdd, if_true]
  rfl

/-- HALT and PAUSE denote their word with the operand 00 when it is left out (30_encoding.md R86). -/
theorem readWrittenUnder_opName (m : OpcodeAssignment) {op : Op} (h : mayOmitOperand op = true) :
    readWrittenUnder m (opName op) = some (joinWord (m.code op) 0) := by
  simp only [readWrittenUnder, splitAtSpace_eq_none (space_not_mem_opName op), opNamed_opName, h,
    if_true]

/-- The written form of an instruction denotes its word under every assignment. -/
theorem readWrittenUnder_writeInstr (m : OpcodeAssignment) {i : Instr} (h : i.WellFormed) :
    readWrittenUnder m (writeInstr i) = some (m.encode i) := by
  unfold writeInstr
  split
  · next hom =>
    obtain ⟨hop, hz⟩ := hom
    rw [readWrittenUnder_opName m hop, OpcodeAssignment.encode, hz, Nat.cast_zero]
  · exact readWrittenUnder_operand m i.op h

/-- Settles O60: instructions with their operand or without a 00, data words, and a 00 written out. -/
theorem writtenFormDenotesTheWord : Obligations.WrittenFormDenotesTheWord :=
  ⟨fun _ hi => readWrittenUnder_writeInstr opcodeAssignment hi,
    fun _ hw => readWrittenUnder_writeWord opcodeAssignment hw,
    fun op => readWrittenUnder_operand opcodeAssignment op (Nat.zero_le _)⟩

end Sys2Proof.Machine

end

/-! ## Proofs: the two ends of a cycle without an instruction -/

section

open Sys2Proof.Claims

namespace Sys2Proof.Machine

/-! ### An illegal word -/

/-- A step that is about to fetch dispatches on what fetch and decode leave (40_cycle.md R101). -/
theorem stepWith_of_aboutToFetch {p : Parameters} (run : Instr → State → Result) {s : State} {w : Int}
    (hw : AboutToFetchUnder p s w) : stepWith p run s = dispatchFetched p run (fetched s w) := by
  obtain ⟨hr, hp, hopc, hpc, hread⟩ := hw
  have hl : ¬s.LoopEnds p := not_or.mpr ⟨hopc, hpc.not_ge⟩
  rw [stepWith_cycle p run s hr hp, cycle, if_neg hl, State.fetch_eq_fetched hread]

/-- A fetched word that is no instruction is the fault, whatever the handlers are (40_cycle.md R105). -/
theorem dispatchFetched_of_illegalOpcode {p : Parameters} (run : Instr → State → Result) {s : State}
    (hd : p.opcodes.decode s.ir = .illegalOpcode) :
    dispatchFetched p run s = .next (faultedUnder p s .illegalOpcode) := by
  rw [dispatchFetched, hd, State.runtimeFault_eq]

/-- Settles O23: the dispatch of the illegal word in `ir`. -/
theorem illegalWordFaultsAtDecode : Obligations.IllegalWordFaultsAtDecode := fun s w hw hd =>
  have hir : hardware.opcodes.decode (fetched s w).ir = .illegalOpcode := hd
  (stepWith_of_aboutToFetch exec hw).trans (dispatchFetched_of_illegalOpcode exec hir)

/-! ### A pc past the end of memory -/

/-- The loop test fails at a pc past the end, whatever the handlers are (40_cycle.md R102). -/
theorem stepWith_of_memSize_le_pc {p : Parameters} (run : Instr → State → Result) {s : State}
    (hr : s.rs = .executing) (hp : s.prompted = false) (hpc : p.memSize ≤ s.pc) :
    stepWith p run s = .next { s with
      rs := .halted .fellOff
      out := s.out ++ if p.dumpOnFalloff then [.dump (dumpOfUnder p s)] else [] } := by
  have hl : s.LoopEnds p := .inr hpc
  rw [stepWith_cycle p run s hr hp, cycle, if_pos hl, State.fallOff_eq]

/-- Settles O24: `stepWith_of_memSize_le_pc` for this hardware's handlers and for those under any
parameters. -/
theorem pcPastTheEndFallsOff : Obligations.PcPastTheEndFallsOff :=
  ⟨fun _ hr hp hpc => stepWith_of_memSize_le_pc (p := hardware) exec hr hp hpc,
    fun p _ hr hp hpc => stepWith_of_memSize_le_pc (execUnder p) hr hp hpc⟩

end Sys2Proof.Machine

end

/-! ## Proofs: READ and WRITE -/

section

open Sys2Proof.Claims

namespace Sys2Proof.Machine

/-! ### WRITE -/

/-- WRITE of a location of memory prints its word (41_io.md R122). -/
theorem execUnder_write_inMemory (p : Parameters) (s : State) {a : Nat} (ha : a < p.memSize) :
    execUnder p (.write a) s = .next (s.emit (.written (s.mem.read a))).advance :=
  congrArg Host.Outcome.next (withOperand_inMemory p s a _ ha)

/-- Settles O33: WRITE with its operand in memory, and the fault that it shares with the other
instructions that access their operand's cell. -/
theorem writePrintsTheWord : Obligations.WritePrintsTheWord := fun _ s =>
  ⟨fun ha => (exec_eq _ s).trans (execUnder_write_inMemory hardware s ha),
    fun ha => (exec_eq _ s).trans (execUnder_outOfRange (p := hardware) s ha (.inl rfl))⟩

/-! ### READ with the console's integer -/

/-- A value that is no Word is the fault, whatever the location (41_io.md R121). -/
theorem finishRead_not_isWord (p : Parameters) (a : Int) {v : Int} (s : State) (hv : ¬IsWord v) :
    finishRead p a v s = faultedUnder p s .inputRange :=
  (if_neg hv).trans (State.runtimeFault_eq p s _)

/-- A Word for a location of memory is stored there and the next instruction follows (41_io.md R120). -/
theorem finishRead_stored (p : Parameters) {a v : Int} (s : State) (hv : IsWord v)
    (ha : InMemoryUnder p a) :
    (finishRead p a v s).getUnder p a = some v ∧ SameCellsButUnder p a s (finishRead p a v s) ∧
      finishRead p a v s = { s with mem := (finishRead p a v s).mem, pc := s.pc + 1 } := by
  have e : finishRead p a v s = ({ s with mem := s.mem.write a.toNat v } : State).advance :=
    (if_pos hv).trans (withStored_inMemory p s v _ ha)
  have hmem : (finishRead p a v s).mem = s.mem.write a.toNat v := congrArg State.mem e
  refine ⟨?_, sameCellsBut_of_mem_write p ha.1 v hmem, hmem ▸ e⟩
  rw [State.get_of_inMemory p _ a ha, hmem, Memory.read_write_self]

/-- READ prints its prompt and takes the console's integer before any check (41_io.md R120). -/
theorem execUnder_read_answered (p : Parameters) (a : Nat) {s : State} {v : Int} {rest : List Int}
    (hs : s.answers = v :: rest) :
    execUnder p (.read a) s = .next (finishRead p a v (readTaken s rest)) := by
  simp only [execUnder, execReadUnder, hs]
  rfl

/-- Settles O34: READ takes the integer and stores it. -/
theorem readStoresTheConsoleInteger : Obligations.ReadStoresTheConsoleInteger :=
  fun a s _ rest hs hv ha => ⟨_, (exec_eq _ s).trans (execUnder_read_answered hardware a hs),
    finishRead_stored hardware (readTaken s rest) hv ((inMemory_natCast hardware a).mpr ha)⟩

/-- Settles O35: READ takes the integer, and the check of its value comes first. -/
theorem readFaultsOnItsValueBeforeItsLocation : Obligations.ReadFaultsOnItsValueBeforeItsLocation := by
  intro a s v rest hs
  refine ⟨fun hv => ?_, fun hv ha => ?_⟩
  · rw [exec_eq, execUnder_read_answered hardware a hs, finishRead_not_isWord hardware a _ hv]
    rfl
  · exact (exec_eq _ s).trans (execUnder_read_outOfRange (p := hardware) s ha hs hv)

/-! ### A READ that holds -/

/-- READ with no integer there prints its prompt and holds (41_io.md R120). -/
theorem execUnder_read_unanswered (p : Parameters) (a : Nat) {s : State} (hs : s.answers = []) :
    execUnder p (.read a) s = .next (s.emit .readPrompt).hold := by
  simp only [execUnder, execReadUnder, hs]

/-- A READ that holds takes the console's integer and goes on at `opd`, with no second prompt
(10_state.md R25, R38). -/
theorem stepUnder_resume_answered (p : Parameters) {s : State} {v : Int} {rest : List Int}
    (hr : s.rs = .executing) (hp : s.prompted = true) (hs : s.answers = v :: rest) :
    stepUnder p s = .next (finishRead p s.opd v (s.takeAnswer rest)) := by
  simp only [stepUnder, stepWith_resume p _ s hr hp, resumeRead, hs]

/-- Settles O36: the hold, and what a READ does with the integer once it comes. -/
theorem readHoldsUntilTheConsoleAnswers : Obligations.ReadHoldsUntilTheConsoleAnswers := by
  refine ⟨fun a s hs => (exec_eq _ s).trans (execUnder_read_unanswered hardware a hs),
    fun a s v rest hr hp hopd hs => ?_⟩
  have hstep : step s = .next (finishRead hardware a v (s.takeAnswer rest)) := by
    rw [step_eq, stepUnder_resume_answered hardware hr hp hs, hopd]
  refine ⟨fun hv ha => ⟨_, hstep, finishRead_stored hardware (s.takeAnswer rest) hv
    ((inMemory_natCast hardware a).mpr ha)⟩, fun hv => ?_⟩
  rw [hstep, finishRead_not_isWord hardware a _ hv]
  rfl

end Sys2Proof.Machine

end

/-! ## Proofs: LOAD and STORE -/

section

open Sys2Proof.Claims

namespace Sys2Proof.Machine

/-- The state a fault leaves has acc and every cell as before (60_exceptions.md R222, D8). -/
theorem raises_of_exec_eq_faulted {i : Instr} {s : State} {c : FaultCause}
    (h : exec i s = .next (faulted s c)) : Raises i s c :=
  ⟨_, h, rfl, rfl, sameCells_of_mem_eq hardware rfl⟩

/-- LOAD of a location of memory puts its word in acc (42_load_store.md R130). -/
theorem execUnder_load_inMemory (p : Parameters) (s : State) {a : Nat} (ha : a < p.memSize) :
    execUnder p (.load a) s = .next (s.setAcc (s.mem.read a)).advance :=
  congrArg Host.Outcome.next (withOperand_inMemory p s a _ ha)

/-- Settles O27: LOAD with its operand in memory, and the fault that it shares with the other
instructions that access their operand's cell. -/
theorem loadSetsTheAccumulator : Obligations.LoadSetsTheAccumulator := fun _ s =>
  ⟨fun ha => (exec_eq _ s).trans (execUnder_load_inMemory hardware s ha),
    fun ha => raises_of_exec_eq_faulted
      ((exec_eq _ s).trans (execUnder_outOfRange (p := hardware) s ha (.inr (.inl rfl))))⟩

/-- Settles O28: inside memory STORE is one write of the old acc, seen at its operand only; outside it
ends with the shared fault. -/
theorem storeWritesAndClearsTheAccumulator : Obligations.StoreWritesAndClearsTheAccumulator := by
  intro a s
  refine ⟨fun ha => ⟨_, (exec_eq _ s).trans (execUnder_store_inMemory hardware s ha), ?_, ?_, rfl⟩,
    fun ha => raises_of_exec_eq_faulted
      ((exec_eq _ s).trans (execUnder_outOfRange (p := hardware) s ha (.inr (.inr (.inl rfl)))))⟩
  · exact (State.get_natCast hardware _ a ha).trans
      (congrArg some (Memory.read_write_self s.mem a s.acc))
  · exact sameCellsBut_of_mem_write hardware (Int.natCast_nonneg a) s.acc rfl

end Sys2Proof.Machine

end

/-! ## Proofs: arithmetic -/

section

open Sys2Proof.Claims

namespace Sys2Proof.Machine

/-! ### ADD, SUBTRACT and MULTIPLY -/

/-- What an instruction does that computes `f` of its operand's word and checks the result: the location
first, then the result (43_arithmetic.md R140, R141). -/
theorem outcome_of_checkedResult (p : Parameters) (s : State) (a : Nat) (f : Int → Int) {r : Result}
    (h : r = .next (withOperand p s a (fun m => withResult p s (f m)))) :
    (a < p.memSize → IsWord (f (s.mem.read a)) →
      r = .next { s with acc := f (s.mem.read a), pc := s.pc + 1 }) ∧
    (a < p.memSize → ¬IsWord (f (s.mem.read a)) → r = .next (faultedUnder p s .overflow)) ∧
    (p.memSize ≤ a → r = .next (faultedUnder p s (.outOfRange a))) := by
  refine ⟨fun ha hw => ?_, fun ha hw => ?_, fun ha => ?_⟩
  · rw [h, withOperand_inMemory p s a _ ha, withResult, if_pos hw]
    rfl
  · rw [h, withOperand_inMemory p s a _ ha, withResult, if_neg hw, State.runtimeFault_eq]
  · rw [h, withOperand_outOfRange p s a _ ha, State.runtimeFault_eq]

/-- Settles O29: ADD checks the sum. -/
theorem addGivesTheExactSumOrOverflows : Obligations.AddGivesTheExactSumOrOverflows := fun a s =>
  outcome_of_checkedResult hardware s a (s.acc + ·) (exec_eq (.add a) s)

/-- Settles O30: SUBTRACT checks the difference. -/
theorem subtractGivesTheExactDifferenceOrOverflows :
    Obligations.SubtractGivesTheExactDifferenceOrOverflows := fun a s =>
  outcome_of_checkedResult hardware s a (s.acc - ·) (exec_eq (.subtract a) s)

/-- Settles O31: MULTIPLY checks the product. -/
theorem multiplyGivesTheExactProductOrOverflows :
    Obligations.MultiplyGivesTheExactProductOrOverflows := fun a s =>
  outcome_of_checkedResult hardware s a (s.acc * ·) (exec_eq (.multiply a) s)

/-! ### DIVIDE -/

/-- Truncated division by sign and magnitude (43_arithmetic.md R144, D4). -/
theorem tdiv_eq_sign_mul_natAbs_div (x y : Int) :
    x.tdiv y = x.sign * y.sign * ((x.natAbs / y.natAbs : Nat) : Int) := by
  rw [← (x.tdiv y).sign_mul_natAbs, Int.sign_tdiv, Int.natAbs_tdiv]
  split
  case isTrue h => rw [zero_mul, Nat.div_eq_of_lt h, Int.natCast_zero, mul_zero]
  case isFalse => rfl

/-- DIVIDE by a word other than 0 (43_arithmetic.md R144). -/
theorem execUnder_divide_of_ne_zero (p : Parameters) (s : State) {a : Nat} (ha : a < p.memSize)
    (hm : s.mem.read a ≠ 0) :
    execUnder p (.divide a) s = .next (s.setAcc (s.acc.tdiv (s.mem.read a))).advance :=
  congrArg Host.Outcome.next ((withOperand_inMemory p s a _ ha).trans (if_neg hm))

/-- DIVIDE by 0 is the fault, whatever acc holds (43_arithmetic.md R144). -/
theorem execUnder_divide_of_eq_zero (p : Parameters) (s : State) {a : Nat} (ha : a < p.memSize)
    (hm : s.mem.read a = 0) :
    execUnder p (.divide a) s = .next (faultedUnder p s .divideByZero) :=
  congrArg Host.Outcome.next (((withOperand_inMemory p s a _ ha).trans (if_pos hm)).trans
    (State.runtimeFault_eq p s _))

/-- Settles O32: the quotient by sign and magnitude, no larger than acc; the two faults come before it. -/
theorem divideTruncatesTowardZero : Obligations.DivideTruncatesTowardZero := fun _ s =>
  ⟨fun ha hm => ⟨_, (exec_eq _ s).trans (execUnder_divide_of_ne_zero hardware s ha hm),
      tdiv_eq_sign_mul_natAbs_div _ _, fun hacc => isWord_tdiv hacc _, rfl⟩,
    fun ha hm => (exec_eq _ s).trans (execUnder_divide_of_eq_zero hardware s ha hm),
    fun ha => (exec_eq _ s).trans (execUnder_outOfRange (p := hardware) s ha (by simp))⟩

end Sys2Proof.Machine

end

/-! ## Proofs: the branches -/

section

open Sys2Proof.Claims

namespace Sys2Proof.Machine

/-! ### Where a branch goes -/

theorem State.branchIf_taken (s : State) {taken : Bool} (n : Nat) (h : taken = true) :
    s.branchIf taken n = s.jump n := if_pos h

theorem State.branchIf_not_taken (s : State) {taken : Bool} (n : Nat) (h : ¬taken = true) :
    s.branchIf taken n = s.advance := if_neg h

theorem State.accNegative_iff (s : State) : s.accNegative = true ↔ s.acc < 0 := decide_eq_true_iff

theorem State.accZero_iff (s : State) : s.accZero = true ↔ s.acc = 0 := decide_eq_true_iff

theorem exec_branch (n : Nat) (s : State) : exec (.branch n) s = .next (s.jump n) := rfl

theorem exec_branchNeg (n : Nat) (s : State) :
    exec (.branchNeg n) s = .next (s.branchIf s.accNegative n) := rfl

theorem exec_branchZero (n : Nat) (s : State) :
    exec (.branchZero n) s = .next (s.branchIf s.accZero n) := rfl

/-- BRANCHNEG of a negative acc is taken (44_branch.md R161). -/
theorem exec_branchNeg_of_neg (n : Nat) {s : State} (h : s.acc < 0) :
    exec (.branchNeg n) s = .next (s.jump n) := by
  rw [exec_branchNeg, s.branchIf_taken n (s.accNegative_iff.mpr h)]

/-- BRANCHNEG of an acc that is not negative is not taken (44_branch.md R161). -/
theorem exec_branchNeg_of_nonneg (n : Nat) {s : State} (h : 0 ≤ s.acc) :
    exec (.branchNeg n) s = .next s.advance := by
  rw [exec_branchNeg, s.branchIf_not_taken n (s.accNegative_iff.not.mpr h.not_gt)]

/-- BRANCHZERO of a zero acc is taken (44_branch.md R162). -/
theorem exec_branchZero_of_eq_zero (n : Nat) {s : State} (h : s.acc = 0) :
    exec (.branchZero n) s = .next (s.jump n) := by
  rw [exec_branchZero, s.branchIf_taken n (s.accZero_iff.mpr h)]

/-- BRANCHZERO of an acc other than 0 is not taken (44_branch.md R162). -/
theorem exec_branchZero_of_ne_zero (n : Nat) {s : State} (h : s.acc ≠ 0) :
    exec (.branchZero n) s = .next s.advance := by
  rw [exec_branchZero, s.branchIf_not_taken n (s.accZero_iff.not.mpr h)]

/-- Settles O37: each branch by the sign of acc. -/
theorem branchesSetThePc : Obligations.BranchesSetThePc := fun n s =>
  ⟨exec_branch n s, exec_branchNeg_of_neg n, exec_branchNeg_of_nonneg n,
    exec_branchZero_of_eq_zero n, exec_branchZero_of_ne_zero n⟩

/-! ### The frame of the branches -/

/-- Taken or not, a conditional branch only moves the pc. -/
theorem State.branchIf_eq_jump (s : State) (taken : Bool) (n : Nat) :
    ∃ m, (m = n ∨ m = s.pc + 1) ∧ s.branchIf taken n = s.jump m := by
  cases taken with
  | true => exact ⟨n, .inl rfl, rfl⟩
  | false => exact ⟨s.pc + 1, .inr rfl, rfl⟩

/-- Every branch is a move of the pc, to its operand or to the next location (44_branch.md R163). -/
theorem exec_eq_jump_of_branch {n : Nat} {i : Instr} (s : State)
    (hi : i = .branch n ∨ i = .branchNeg n ∨ i = .branchZero n) :
    ∃ m, (m = n ∨ m = s.pc + 1) ∧ exec i s = .next (s.jump m) := by
  rcases hi with rfl | rfl | rfl
  · exact ⟨n, .inl rfl, exec_branch n s⟩
  · obtain ⟨m, hm, e⟩ := s.branchIf_eq_jump s.accNegative n
    exact ⟨m, hm, e ▸ exec_branchNeg n s⟩
  · obtain ⟨m, hm, e⟩ := s.branchIf_eq_jump s.accZero n
    exact ⟨m, hm, e ▸ exec_branchZero n s⟩

/-- Settles O44: the state a branch leaves is the old one with the pc moved. -/
theorem branchesWriteNothingButThePc : Obligations.BranchesWriteNothingButThePc := by
  intro n i s t hi h
  obtain ⟨m, hm, e⟩ := exec_eq_jump_of_branch s hi
  obtain rfl : s.jump m = t := by injection e.symm.trans h
  exact ⟨sameCells_of_mem_eq hardware rfl, hm, rfl⟩

/-! ### A branch to itself -/

/-- A word fetched once more changes only the count: the registers show it already
(40_cycle.md R103, R104, D6). -/
theorem fetched_of_shown {s : State} {w : Int} (hir : s.ir = w)
    (hfields : (s.opc, s.opd) = splitWord w) : fetched s w = { s with ic := s.ic + 1 } := by
  rw [fetched, ← hfields, ← hir]

/-- Settles O38: the fetch changes only the count, and the branch moves the pc to where it is. -/
theorem branchToItselfChangesOnlyTheCounter : Obligations.BranchToItselfChangesOnlyTheCounter := by
  intro s w hw hir hfields hbranch
  have hstep {i : Instr} (hd : decode w = .instr i) : step s = exec i { s with ic := s.ic + 1 } :=
    fetched_of_shown hir hfields ▸ stepWith_of_decode (p := hardware) exec hw hd
  rcases hbranch with hd | ⟨hd, hneg⟩ | ⟨hd, hzero⟩
  · exact (hstep hd).trans (exec_branch s.pc _)
  · exact (hstep hd).trans (exec_branchNeg_of_neg s.pc hneg)
  · exact (hstep hd).trans (exec_branchZero_of_eq_zero s.pc hzero)

end Sys2Proof.Machine

end

/-! ## Proofs: HALT, PAUSE and the dump -/

section

open Sys2Proof.Claims

namespace Sys2Proof.Machine

/-! ### The dump -/

/-- Entry `a` of a dump's memory part is the word of cell `a` with its flag (45_halt_pause.md R173). -/
theorem dumpCells_getElem? (p : Parameters) (m : Memory) {a : Nat} (ha : a < p.memSize) :
    (dumpCells p m)[a]? = some (m.read a, isValidWord (m.read a)) := by
  rw [dumpCells, List.getElem?_map, List.getElem?_range ha, Option.map_some]

/-- Settles O10: the registers are the state's by definition, the cells are `dumpCells_getElem?`. -/
theorem dumpHoldsTheRegistersAndEveryCell : Obligations.DumpHoldsTheRegistersAndEveryCell :=
  fun p s => ⟨rfl, rfl, rfl, rfl, rfl, dumpOfUnder_mem_length p s,
    fun _ ha => dumpCells_getElem? p s.mem ha⟩

/-! ### HALT -/

/-- HALT's dump, taken after the register effects, shows neither the pc nor the run state, so it is the
dump of the state before (45_halt_pause.md R171, R173, R174). -/
theorem execUnder_halt (p : Parameters) (x : Nat) (s : State) :
    execUnder p (.halt x) s = .next { s with
      pc := s.pc + 1, rs := .halted .halt, out := s.out ++ [.dump (dumpOfUnder p s)] } := rfl

/-- Settles O39: HALT at this hardware's parameters. -/
theorem haltEndsTheRunWithADump : Obligations.HaltEndsTheRunWithADump := fun x s =>
  (exec_eq _ s).trans (execUnder_halt hardware x s)

/-! ### PAUSE -/

/-- PAUSE with no acknowledgment there prints its prompt and leaves the core Paused
(45_halt_pause.md R175, log 5). -/
theorem execUnder_pause_unacknowledged (p : Parameters) (x : Nat) {s : State} (hs : s.acks = []) :
    execUnder p (.pause x) s = .next ((s.setRunState .paused).emit .pausePrompt) := by
  simp only [execUnder, execPauseUnder, hs]

/-- PAUSE with an acknowledgment there takes it once the prompt is printed (45_halt_pause.md R175). -/
theorem execUnder_pause_acknowledged (p : Parameters) (x : Nat) {s : State} {w : Bool}
    {rest : List Bool} (hs : s.acks = w :: rest) :
    execUnder p (.pause x) s = .next
      (acknowledge p w (((s.setRunState .paused).emit .pausePrompt).takeAck rest)) := by
  simp only [execUnder, execPauseUnder, hs]

/-- The step of a Paused core takes the acknowledgment (45_halt_pause.md R176). -/
theorem stepUnder_paused_acknowledged (p : Parameters) {s : State} {w : Bool} {rest : List Bool}
    (hr : s.rs = .paused) (hs : s.acks = w :: rest) :
    stepUnder p s = .next (acknowledge p w (s.takeAck rest)) := by
  simp only [stepUnder, stepWith_paused p _ s hr, pausedStep, hs]

/-- Settles O40: the acknowledgment is taken after the prompt, which stands in the history before the
dump. -/
theorem pausePromptsAndResumesOnTheAcknowledgment :
    Obligations.PausePromptsAndResumesOnTheAcknowledgment := by
  intro x s w rest hs
  rw [exec_eq, execUnder_pause_acknowledged hardware x hs, acknowledge_eq, List.append_cons]
  rfl

/-- Settles O41: PAUSE waits, and the step of the core it leaves takes the acknowledgment. -/
theorem pausedCoreTakesTheAcknowledgment : Obligations.PausedCoreTakesTheAcknowledgment := by
  refine ⟨fun x s hs => (exec_eq _ s).trans (execUnder_pause_unacknowledged hardware x hs),
    fun s w rest hr hs => ?_⟩
  rw [step_eq, stepUnder_paused_acknowledged hardware hr hs, acknowledge_eq]
  rfl

end Sys2Proof.Machine

end

/-! ## Proofs: the image container and the patch engine -/

section

namespace Sys2Proof.Machine

/-! ### One word of an image replaced -/

/-- The image with the word of location `n` replaced: what OverwriteAt and the patch engine leave. -/
def Image.withWord (img : Image) (n : Nat) (v : Int) : Image := { img with words := img.words.set n v }

@[simp] theorem Image.withWord_length (img : Image) (n : Nat) (v : Int) :
    (img.withWord n v).words.length = img.words.length := List.length_set

@[simp] theorem Image.withWord_description (img : Image) (n : Nat) (v : Int) :
    (img.withWord n v).description = img.description := rfl

theorem Image.withWord_getD_self (img : Image) {n : Nat} (v : Int) (h : n < img.words.length) :
    (img.withWord n v).words.getD n 0 = v := by
  rw [Image.withWord, List.getD_eq_getElem?_getD, List.getElem?_set_self h, Option.getD_some]

theorem Image.withWord_getD_other (img : Image) {n k : Nat} (v : Int) (h : n ≠ k) :
    (img.withWord n v).words.getD k 0 = img.words.getD k 0 := by
  rw [Image.withWord, List.getD_eq_getElem?_getD, List.getElem?_set_ne h, List.getD_eq_getElem?_getD]

/-! ### Append and OverwriteAt -/

theorem append_of_isWord (img : Image) {v : Int} (h : IsWord v) :
    append img v = .next ({ img with words := img.words ++ [v] }, img.words.length) := if_pos h

theorem append_of_not_isWord (img : Image) {v : Int} (h : ¬IsWord v) :
    append img v = .refused (.imageWord v) := if_neg h

/-- Outside the image the location is refused, whatever the value (46_image_patch.md R192, log 18). -/
theorem overwriteAt_outside (img : Image) {loc : Int} (v : Int)
    (h : loc < 0 ∨ (img.words.length : Int) ≤ loc) :
    overwriteAt img loc v = .refused (.imageLocation loc) := if_pos h

section Inside

variable (img : Image) {loc v : Int} (h0 : 0 ≤ loc) (hlen : loc < img.words.length)
include h0 hlen

theorem overwriteAt_of_isWord (hv : IsWord v) :
    overwriteAt img loc v = .next (img.withWord loc.toNat v) := by
  rw [overwriteAt, if_neg (by omega), if_pos hv, Image.withWord]

theorem overwriteAt_of_not_isWord (hv : ¬IsWord v) :
    overwriteAt img loc v = .refused (.imageWord v) := by
  rw [overwriteAt, if_neg (by omega), if_neg hv]

end Inside

/-- Settles O57: the cases of Append and OverwriteAt, with the one word `withWord` replaces. -/
theorem imageAppendsAndOverwritesByLocation : Obligations.ImageAppendsAndOverwritesByLocation := by
  refine fun img loc v => ⟨fun hv => ⟨_, append_of_isWord img hv, rfl, rfl⟩, append_of_not_isWord img,
    fun h0 hlen hv => ⟨_, overwriteAt_of_isWord img h0 hlen hv, img.withWord_length _ v,
      img.withWord_description _ v, ?_, ?_⟩,
    overwriteAt_of_not_isWord img, overwriteAt_outside img v⟩
  · exact img.withWord_getD_self v (by omega)
  · exact fun k hk => img.withWord_getD_other v (by omega)

/-! ### One patch entry -/

/-- The opcode field of the word at a location (46_image_patch.md R202, `Decode(img.words[k])`). -/
def Image.opcodeAt (img : Image) (k : Nat) : Int := (splitWord (img.words.getD k 0)).1

theorem isBranchCode_iff (c : Int) :
    isBranchCode c = true ↔ c ∈ [codeOf .branch, codeOf .branchNeg, codeOf .branchZero] := by
  have hop (op : Op) : c = codeOf op ↔ opOf c = some op := eq_comm.trans (opOf_eq_some c op).symm
  simp only [List.mem_cons, List.not_mem_nil, or_false, hop]
  unfold isBranchCode
  split <;> simp_all

section Entry

variable {img : Image} {p : PatchEntry} {lineLoc : Int → Option Nat}

/-- A line with no location is the first thing checked (46_image_patch.md R204). -/
theorem resolveOne_undefined (ht : lineLoc p.targetLine = none) :
    resolveOne img p lineLoc = .fault (.undefinedReference p.targetLine) := by
  simp only [resolveOne, ht]

variable {t : Nat} (ht : lineLoc p.targetLine = some t)
include ht

theorem resolveOne_outside (h : p.location < 0 ∨ (img.words.length : Int) ≤ p.location) :
    resolveOne img p lineLoc = .refused (.patchLocation p.location) := by
  simp only [resolveOne, ht, if_pos h]

variable (h0 : 0 ≤ p.location) (hlen : p.location < img.words.length)
include h0 hlen

/-- Inside the image, what is left is the branch check and then the range check, in R202's order. -/
theorem resolveOne_inside :
    resolveOne img p lineLoc =
      if isBranchCode (img.opcodeAt p.location.toNat) = false then .refused (.patchNotBranch p.location)
      else if Config.operandMax < t then .refused (.patchTargetRange t)
      else .next (img.withWord p.location.toNat (joinWord (img.opcodeAt p.location.toNat) t)) := by
  rw [resolveOne, ht]
  exact if_neg (by omega)

theorem resolveOne_notBranch (hb : isBranchCode (img.opcodeAt p.location.toNat) = false) :
    resolveOne img p lineLoc = .refused (.patchNotBranch p.location) := by
  rw [resolveOne_inside ht h0 hlen, if_pos hb]

theorem resolveOne_targetRange (hb : isBranchCode (img.opcodeAt p.location.toNat) = true)
    (hr : Config.operandMax < t) : resolveOne img p lineLoc = .refused (.patchTargetRange t) := by
  rw [resolveOne_inside ht h0 hlen, if_neg (by simp [hb]), if_pos hr]

end Entry

/-- An entry that resolves has passed the four checks of R202, and its word was rewritten (R203). -/
theorem resolveOne_eq_next {img img' : Image} {p : PatchEntry} {lineLoc : Int → Option Nat}
    (h : resolveOne img p lineLoc = .next img') :
    ∃ t, lineLoc p.targetLine = some t ∧ 0 ≤ p.location ∧ p.location < img.words.length ∧
      isBranchCode (img.opcodeAt p.location.toNat) = true ∧ t ≤ Config.operandMax ∧
      img' = img.withWord p.location.toNat (joinWord (img.opcodeAt p.location.toNat) t) := by
  cases ht : lineLoc p.targetLine with
  | none => cases (resolveOne_undefined ht).symm.trans h
  | some t =>
    by_cases hout : p.location < 0 ∨ (img.words.length : Int) ≤ p.location
    · cases (resolveOne_outside ht hout).symm.trans h
    · rw [resolveOne_inside ht (by omega) (by omega)] at h
      split at h
      · cases h
      · next hb =>
        split at h
        · cases h
        · next hr =>
          injection h with h
          exact ⟨t, rfl, by omega, by omega, Bool.eq_true_of_not_eq_false hb, Nat.le_of_not_lt hr,
            h.symm⟩

/-- The rewritten word has the branch's opcode and the line's location (46_image_patch.md R203). -/
theorem splitWord_patched {c : Int} (hb : isBranchCode c = true) {t : Nat} (ht : t ≤ Config.operandMax) :
    splitWord (joinWord c t) = (c, (t : Int)) := by
  have hc : 0 ≤ c := by
    have hmem := (isBranchCode_iff c).mp hb
    simp only [codeOf, List.mem_cons, List.not_mem_nil, or_false] at hmem
    omega
  exact splitWord_joinWord hc (Int.natCast_nonneg t) (Int.ofNat_le.mpr ht)

/-! ### A list of entries -/

section Lists

variable {img img' : Image} {p : PatchEntry} {lineLoc : Int → Option Nat}

theorem resolve_cons_eq_next {ps : List PatchEntry} (h : resolve img (p :: ps) lineLoc = .next img') :
    ∃ mid, resolveOne img p lineLoc = .next mid ∧ resolve mid ps lineLoc = .next img' := by
  rw [resolve] at h
  split at h
  · next mid hmid => exact ⟨mid, hmid, h⟩
  · cases h
  · cases h

theorem resolve_cons_of_next {mid : Image} (h : resolveOne img p lineLoc = .next mid)
    (ps : List PatchEntry) : resolve img (p :: ps) lineLoc = resolve mid ps lineLoc := by
  rw [resolve, h]

/-- Entries that resolve hand their image to the entries behind them (46_image_patch.md R202). -/
theorem resolve_append {done : List PatchEntry} (h : resolve img done lineLoc = .next img')
    (todo : List PatchEntry) : resolve img (done ++ todo) lineLoc = resolve img' todo lineLoc := by
  induction done generalizing img with
  | nil =>
    injection h with h
    rw [List.nil_append, h]
  | cons q done ih =>
    obtain ⟨mid, hq, hdone⟩ := resolve_cons_eq_next h
    rw [List.cons_append, resolve_cons_of_next hq, ih hdone]

variable {done : List PatchEntry} (hdone : resolve img done lineLoc = .next img')
  (todo : List PatchEntry)
include hdone

theorem resolve_stops_at_fault {f : Fault} (h : resolveOne img' p lineLoc = .fault f) :
    resolve img (done ++ p :: todo) lineLoc = .fault f := by
  rw [resolve_append hdone, resolve, h]

theorem resolve_stops_at_refusal {r : Refusal} (h : resolveOne img' p lineLoc = .refused r) :
    resolve img (done ++ p :: todo) lineLoc = .refused r := by
  rw [resolve_append hdone, resolve, h]

end Lists

/-- Settles O55: the entry faults on the image that the entries before it left. -/
theorem undefinedLineStopsResolution : Obligations.UndefinedLineStopsResolution :=
  fun _ _ _ todo _ _ hdone ht => resolve_stops_at_fault hdone todo (resolveOne_undefined ht)

/-- Settles O56: the entry is refused on the image that the entries before it left. -/
theorem malformedPatchEntryIsRefused : Obligations.MalformedPatchEntryIsRefused := by
  intro img img' done todo p lineLoc t hdone ht
  refine ⟨fun hout => ?_, fun h0 hlen hb => ?_, fun h0 hlen hb hr => ?_⟩ <;>
    apply resolve_stops_at_refusal hdone
  · exact resolveOne_outside ht hout
  · exact resolveOne_notBranch ht h0 hlen (Bool.eq_false_of_not_eq_true ((isBranchCode_iff _).not.mpr hb))
  · exact resolveOne_targetRange ht h0 hlen ((isBranchCode_iff _).mpr hb) hr

/-! ### What resolution keeps -/

/-- What resolution of `patches` keeps: the image's size, its description, every opcode, and every word
that no entry names (46_image_patch.md R207). -/
structure Image.KeptUnder (patches : List PatchEntry) (img img' : Image) : Prop where
  length : img'.words.length = img.words.length
  description : img'.description = img.description
  opcode : ∀ k, img'.opcodeAt k = img.opcodeAt k
  word : ∀ k : Nat, (∀ p ∈ patches, p.location ≠ k) → img'.words.getD k 0 = img.words.getD k 0

theorem resolveOne_kept {img img' : Image} {p : PatchEntry} {lineLoc : Int → Option Nat}
    (h : resolveOne img p lineLoc = .next img') : img.KeptUnder [p] img' := by
  obtain ⟨t, _, h0, hlen, hb, ht, rfl⟩ := resolveOne_eq_next h
  refine ⟨img.withWord_length _ _, img.withWord_description _ _, fun k => ?_, fun k hk => ?_⟩
  · by_cases hk : p.location.toNat = k
    · subst hk
      rw [Image.opcodeAt, img.withWord_getD_self _ (by omega), splitWord_patched hb ht]
    · rw [Image.opcodeAt, img.withWord_getD_other _ hk, Image.opcodeAt]
  · have := hk p List.mem_cons_self
    exact img.withWord_getD_other _ (by omega)

theorem resolve_kept {img img' : Image} {patches : List PatchEntry} {lineLoc : Int → Option Nat}
    (h : resolve img patches lineLoc = .next img') : img.KeptUnder patches img' := by
  induction patches generalizing img with
  | nil =>
    injection h with h
    exact h ▸ ⟨rfl, rfl, fun _ => rfl, fun _ _ => rfl⟩
  | cons p ps ih =>
    obtain ⟨mid, hp, hps⟩ := resolve_cons_eq_next h
    have hfirst := resolveOne_kept hp
    have hrest := ih hps
    refine ⟨hrest.length.trans hfirst.length, hrest.description.trans hfirst.description,
      fun k => (hrest.opcode k).trans (hfirst.opcode k), fun k hk => ?_⟩
    obtain ⟨hkp, hkps⟩ := List.forall_mem_cons.mp hk
    exact (hrest.word k hkps).trans (hfirst.word k (List.forall_mem_singleton.mpr hkp))

/-! ### Where the patched branches go -/

/-- Every entry is inside the image, and afterwards the operand of its word is its line's location: an
entry's word is as the last entry with that location left it, and these agree on the location. -/
theorem resolve_operand {img img' : Image} {patches : List PatchEntry} {lineLoc : Int → Option Nat}
    (agree : ∀ p ∈ patches, ∀ q ∈ patches, p.location = q.location →
      lineLoc p.targetLine = lineLoc q.targetLine)
    (h : resolve img patches lineLoc = .next img') :
    ∀ p ∈ patches, ∃ t : Nat, lineLoc p.targetLine = some t ∧ t ≤ Config.operandMax ∧
      0 ≤ p.location ∧ p.location < img.words.length ∧
      (splitWord (img'.words.getD p.location.toNat 0)).2 = t := by
  induction patches generalizing img with
  | nil => exact nofun
  | cons p ps ih =>
    obtain ⟨mid, hp, hps⟩ := resolve_cons_eq_next h
    have hlater := ih (fun q hq r hr => agree q (.tail p hq) r (.tail p hr)) hps
    rw [(resolveOne_kept hp).length] at hlater
    intro q hq
    by_cases hmore : ∃ r ∈ ps, r.location = q.location
    · obtain ⟨r, hr, hloc⟩ := hmore
      rw [← hloc, ← agree r (.tail p hr) q hq hloc]
      exact hlater r hr
    · obtain rfl | hq := List.mem_cons.mp hq
      · obtain ⟨t, hline, h0, hlen, hb, ht, rfl⟩ := resolveOne_eq_next hp
        have hlast (r : PatchEntry) (hr : r ∈ ps) : r.location ≠ q.location.toNat :=
          fun e => hmore ⟨r, hr, e.trans (Int.toNat_of_nonneg h0)⟩
        refine ⟨t, hline, ht, h0, hlen, ?_⟩
        rw [(resolve_kept hps).word _ hlast, img.withWord_getD_self _ (by omega),
          splitWord_patched hb ht]
      · exact absurd ⟨q, hq, rfl⟩ hmore

/-- Settles O54: the opcode is kept, the operand is the line's location, the rest is kept. -/
theorem resolvedBranchesGoToTheirLines : Obligations.ResolvedBranchesGoToTheirLines := by
  intro img img' patches lineLoc agree h
  have hkept := resolve_kept h
  refine ⟨hkept.length, hkept.description, fun p hp => ?_, hkept.word⟩
  obtain ⟨t, hline, ht, h0, hlen, hopd⟩ := resolve_operand agree h p hp
  exact ⟨t, hline, ht, h0, hlen, Prod.ext (hkept.opcode _) hopd⟩

end Sys2Proof.Machine

end

/-! ## Proofs: the image file -/

section

namespace Sys2Proof.Machine

/-! ### A location in decimal -/

/-- The written digits of `n`, read from 0, give `n` and then what stands behind them. -/
theorem readLocation_decimalFrom {fuel n : Nat} (h : n < fuel) (rest : Text) :
    readLocation (decimalFrom fuel n rest) = readDigits n rest := by
  induction fuel generalizing n rest with
  | zero => exact absurd h (Nat.not_lt_zero n)
  | succ fuel ih =>
    rw [decimalFrom]
    split
    · next hn => rw [readLocation, readDigits_digitChar hn, Nat.mul_zero, Nat.zero_add]
    · rw [ih (by omega), readDigits_digitChar (Nat.mod_lt n (by decide)), Nat.div_add_mod]

theorem readLocation_writeLocation (n : Nat) : readLocation (writeLocation n) = some n :=
  readLocation_decimalFrom (Nat.lt_succ_self n) []

theorem space_not_mem_digitChar_cons {d : Nat} (hd : d < 10) {rest : Text} (h : ' ' ∉ rest) :
    ' ' ∉ digitChar d :: rest :=
  List.not_mem_cons_of_ne_of_not_mem (digitChar_ne_space hd).symm h

theorem space_not_mem_decimalFrom (fuel n : Nat) {rest : Text} (h : ' ' ∉ rest) :
    ' ' ∉ decimalFrom fuel n rest := by
  induction fuel generalizing n rest with
  | zero => exact h
  | succ fuel ih =>
    rw [decimalFrom]
    split
    · next hn => exact space_not_mem_digitChar_cons hn h
    · exact ih _ (space_not_mem_digitChar_cons (Nat.mod_lt n (by decide)) h)

/-! ### One line -/

/-- A description line reads back, whatever the text (46_image_patch.md R210). -/
theorem readLine_description (text : Text) :
    readLine ('-' :: '1' :: ' ' :: text) = some (.description text) := rfl

/-- A cell line reads back: its location is no -1, for it reads as a number. -/
theorem readLine_cell (n : Nat) {w : Int} (h : IsWord w) :
    readLine (writeLocation n ++ ' ' :: writeWord w) = some (.cell n w) := by
  have hspace : ' ' ∉ writeLocation n := space_not_mem_decimalFrom _ n List.not_mem_nil
  have hloc : writeLocation n ≠ ['-', '1'] := fun e => by
    have hread := readLocation_writeLocation n
    rw [e] at hread
    cases hread
  simp only [readLine, splitAtSpace_append hspace, if_neg hloc, readLocation_writeLocation,
    readWord_writeWord h]

/-! ### The words of the cells read -/

theorem wordsOfCells_length (cells : List (Nat × Int)) :
    (wordsOfCells cells).length = cells.foldr (fun c n => max (c.1 + 1) n) 0 := by
  rw [wordsOfCells, List.length_map, List.length_range]

/-- Every location named so far is inside the words read so far. -/
theorem lt_wordsOfCells_length {cells : List (Nat × Int)} {c : Nat × Int} (h : c ∈ cells) :
    c.1 < (wordsOfCells cells).length := by
  rw [wordsOfCells_length]
  induction cells with
  | nil => cases h
  | cons d cells ih =>
    rw [List.foldr_cons]
    obtain rfl | h := List.mem_cons.mp h
    · omega
    · have := ih h
      omega

/-- The cell at the first location past the words read so far adds its word at their end. -/
theorem wordsOfCells_cons_next (cells : List (Nat × Int)) (w : Int) :
    wordsOfCells (((wordsOfCells cells).length, w) :: cells) = wordsOfCells cells ++ [w] := by
  have hmax (n : Nat) : max (n + 1) n = n + 1 := by omega
  rw [wordsOfCells, List.foldr_cons, wordsOfCells_length, hmax, List.range_succ, List.map_append,
    List.map_singleton, Memory.read_cons, if_pos rfl]
  congr 1
  refine List.map_congr_left fun k hk => ?_
  rw [Memory.read_cons, if_neg (List.mem_range.mp hk).ne']

/-! ### The whole file -/

/-- Cell lines that go on where the words read so far end add their words to them. -/
theorem readLines_writeCells {ws : List Int} (hws : ∀ w ∈ ws, IsWord w) (d : Option Text)
    (cells : List (Nat × Int)) :
    readLines (writeCells (wordsOfCells cells).length ws) d cells =
      .next { words := wordsOfCells cells ++ ws, description := d } := by
  induction ws generalizing cells with
  | nil => rw [writeCells, readLines, List.append_nil]
  | cons w ws ih =>
    obtain ⟨hw, hws⟩ := List.forall_mem_cons.mp hws
    have hnew : ¬cells.any (fun c => c.1 == (wordsOfCells cells).length) = true := by
      simp only [List.any_eq_true, beq_iff_eq, not_exists, not_and]
      exact fun c hc => (lt_wordsOfCells_length hc).ne
    have hnext := ih hws (((wordsOfCells cells).length, w) :: cells)
    rw [wordsOfCells_cons_next, List.length_append, List.length_singleton, List.append_assoc,
      List.singleton_append] at hnext
    simp only [writeCells, readLines, readLine_cell _ hw, if_neg hnew, hnext]

/-- Settles O58: the description line first, if any, then the cell lines from location 0. -/
theorem imageFileReadsBackTheImage : Obligations.ImageFileReadsBackTheImage := by
  rintro ⟨words, description⟩ hwords
  have hcells (d : Option Text) := readLines_writeCells hwords d []
  cases description with
  | none => exact hcells none
  | some text => exact hcells (some text)

end Sys2Proof.Machine

end

/-! ## Proofs: reset, and starting a run -/

section

open Sys2Proof.Claims

namespace Sys2Proof.Machine

/-! ### A machine whose registers and cells are 0 -/

/-- A memory with no entry reads 0 at every location (20_memory.md R53). -/
theorem State.cellsZero_of_mem_eq_nil {s : State} (h : s.mem = []) : s.CellsZero := fun l hl =>
  (State.get_of_inMemory hardware s l hl).trans (by rw [h, Memory.read_nil])

/-- Settles O11: the fields of reset are the zeros, and its memory has no entry. -/
theorem resetMachineIsIdleAndZero : Obligations.ResetMachineIsIdleAndZero :=
  ⟨rfl, ⟨rfl, rfl, rfl, rfl, rfl, rfl⟩, State.cellsZero_of_mem_eq_nil rfl⟩

/-! ### When a run starts -/

/-- A free machine begins the run asked for (70_reset_and_hazards.md R254). -/
theorem startRunUnder_of_free (p : Parameters) (q : RunRequest) {s : State} (h : s.rs.Free) :
    startRunUnder p q s = beginRun p q s := by
  rcases h with h | ⟨r, h⟩ <;> rw [startRunUnder, h]

/-- A busy machine refuses it, with its run state (70_reset_and_hazards.md R254). -/
theorem startRunUnder_of_busy (p : Parameters) (q : RunRequest) {s : State} (h : s.rs.Busy) :
    startRunUnder p q s = .refused (.runRefused s.rs) := by
  rcases h with h | h | h <;> rw [startRunUnder, h]

theorem RunState.free_or_busy (r : RunState) : r.Free ∨ r.Busy := by
  cases r with
  | idle => exact .inl (.inl rfl)
  | halted h => exact .inl (.inr ⟨h, rfl⟩)
  | loading => exact .inr (.inl rfl)
  | executing => exact .inr (.inr (.inl rfl))
  | paused => exact .inr (.inr (.inr rfl))

/-- Settles O16: the refusal of a busy machine, at this hardware's parameters. -/
theorem runIsRefusedWhileARunIsActive : Obligations.RunIsRefusedWhileARunIsActive :=
  fun _ q => startRunUnder_of_busy hardware q

/-- Settles O12: `Run()` starts from `fresh`, whose registers are 0 and whose memory has no entry. -/
theorem runClearsTheMachineAndEntersLoading : Obligations.RunClearsTheMachineAndEntersLoading :=
  fun s hf => ⟨s.runEntry, startRunUnder_of_free hardware .entry hf, rfl,
    ⟨rfl, rfl, rfl, rfl, rfl, rfl⟩, State.cellsZero_of_mem_eq_nil rfl⟩

/-- Settles O13: only a free machine does not refuse, and both runs start from `fresh`, which keeps the
history and the streams and closes the prompt. -/
theorem acceptedRunKeepsTheHistory : Obligations.AcceptedRunKeepsTheHistory := by
  intro s t q h
  rw [startRun_eq] at h
  rcases s.rs.free_or_busy with hf | hb
  · rw [startRunUnder_of_free hardware q hf] at h
    rcases beginRun_cases hardware q s with ⟨_, e⟩ | ⟨img, _, _, e⟩ | ⟨_, _, _, _, e⟩
    · obtain rfl : s.runEntry = t := Host.Outcome.next.inj (e.symm.trans h)
      exact ⟨hf, rfl, ⟨rfl, rfl, rfl⟩, rfl⟩
    · obtain rfl : s.runImage hardware img = t := Host.Outcome.next.inj (e.symm.trans h)
      exact ⟨hf, rfl, ⟨rfl, rfl, rfl⟩, rfl⟩
    · cases e.symm.trans h
  · cases (startRunUnder_of_busy hardware q hb).symm.trans h

/-! ### Run(image) -/

/-- A bulk load into a cleared memory gives the image's word at every location of memory, and 0 beyond
the image (70_reset_and_hazards.md R260). -/
theorem Memory.read_loadFrom_nil (p : Parameters) (ws : List Int) {a : Nat} (ha : a < p.memSize) :
    (Memory.loadFrom p 0 ws []).read a = ws.getD a 0 := by
  have h := Memory.read_loadFrom p 0 ws [] a
  rw [Nat.zero_add] at h
  rw [h, Memory.read_nil]
  split
  · rfl
  · next hn =>
    have hlen : ws.length ≤ a := Nat.le_of_not_lt fun hl => hn ⟨hl, ha⟩
    rw [List.getD_eq_default _ _ hlen]

/-- Settles O14: Words only are not refused, and `runImage` loads them into the cleared memory. -/
theorem runImageLoadsTheImageAndExecutes : Obligations.RunImageLoadsTheImageAndExecutes := by
  intro p s img hf hw
  have hstart : startRunUnder p (.image img) s = .next (s.runImage p img) := by
    rw [startRunUnder_of_free p _ hf, beginRun, (firstNonWord_eq_none _).mpr hw]
  exact ⟨s.runImage p img, hstart, rfl, ⟨rfl, rfl, rfl, rfl, rfl, rfl⟩,
    fun a ha => (State.get_natCast p _ a ha).trans
      (congrArg some (Memory.read_loadFrom_nil p img.words ha)),
    rfl, rfl, ⟨rfl, rfl, rfl⟩⟩

/-- The value a refusal names stands in the image and is no Word (log 16). -/
theorem firstNonWord_eq_some {ws : List Int} {v : Int} (h : firstNonWord ws = some v) :
    v ∈ ws ∧ ¬IsWord v := by
  have hv : (!decide (IsWord v)) = true := List.find?_some (p := fun w => !decide (IsWord w)) h
  exact ⟨List.mem_of_find?_eq_some h, of_decide_eq_false ((Bool.not_eq_true' _).mp hv)⟩

/-- Settles O15: an image not of Words only has a first value that is no Word. -/
theorem runImageRefusesAValueThatIsNoWord : Obligations.RunImageRefusesAValueThatIsNoWord := by
  intro s img hf hw
  obtain ⟨v, hv⟩ := Option.ne_none_iff_exists'.mp (mt (firstNonWord_eq_none img.words).mp hw)
  obtain ⟨hmem, hnot⟩ := firstNonWord_eq_some hv
  refine ⟨v, hmem, hnot, ?_⟩
  rw [startRun_eq, startRunUnder_of_free hardware _ hf, beginRun, hv]

end Sys2Proof.Machine

end

/-! ## Proofs: interactive entry and the waits -/

section

open Sys2Proof.Claims

namespace Sys2Proof.Machine

/-! ### Entry with an answer -/

/-- An entry step takes its answer in the state that the prompt leaves (70_reset_and_hazards.md R256). -/
theorem stepUnder_entry_answered (p : Parameters) {s : State} {v : Int} {rest : List Int}
    (hr : s.rs = .loading) (ha : s.answers = v :: rest) :
    stepUnder p s = .next (enterValue p v
      { s with out := printedAtEntry s, answers := rest, prompted := false }) := by
  rw [stepUnder_loading_answered p s v rest hr ha, State.promptEntry_eq]
  rfl

/-- Settles O19: the sentinel sets the run state and nothing else. -/
theorem sentinelEndsEntryAndStartsExecution : Obligations.SentinelEndsEntryAndStartsExecution :=
  fun s _ hr ha => (step_eq s).trans
    ((stepUnder_entry_answered hardware hr ha).trans (congrArg Host.Outcome.next (if_pos rfl)))

/-- The sentinel is no Word, so no Word ends entry (70_reset_and_hazards.md R257). -/
theorem ne_entrySentinel_of_isWord {v : Int} (h : IsWord v) : v ≠ Config.entrySentinel := by
  rintro rfl
  exact absurd h (by decide)

/-- A Word entered while memory has room is written at `ic`, and `ic` counts it
(70_reset_and_hazards.md R256). -/
theorem enterValue_stored (p : Parameters) {v : Int} {s : State} (hw : IsWord v)
    (hi : s.ic < p.memSize) :
    enterValue p v s = { s with mem := s.mem.write s.ic v, ic := s.ic + 1 } := by
  rw [enterValue, if_neg (ne_entrySentinel_of_isWord hw), if_pos hw, s.put_natCast p s.ic v hi,
    Option.elim_some]

/-- Settles O18: the write at `ic` is seen there and nowhere else. -/
theorem entryStoresTheWordAtTheNextFreeLocation :
    Obligations.EntryStoresTheWordAtTheNextFreeLocation := by
  intro s v rest hr ha hw hi
  refine ⟨_, (step_eq s).trans ((stepUnder_entry_answered hardware hr ha).trans
    (congrArg Host.Outcome.next (enterValue_stored hardware hw hi))), ?_, ?_, rfl⟩
  · exact (State.get_natCast hardware _ s.ic hi).trans
      (congrArg some (Memory.read_write_self s.mem s.ic v))
  · exact sameCellsBut_of_mem_write hardware (Int.natCast_nonneg s.ic) v rfl

/-! ### A core that waits -/

/-- An entry step with no answer prints the prompt, once, and holds (70_reset_and_hazards.md R256). -/
theorem stepUnder_entry_unanswered (p : Parameters) {s : State} (hr : s.rs = .loading)
    (ha : s.answers = []) :
    stepUnder p s = .next { s with out := printedAtEntry s, prompted := true } := by
  have h : stepUnder p s = .next s.promptEntry.hold := by
    simp only [stepUnder, stepWith_loading p _ s hr, entryStep, ha]
  rw [h, State.promptEntry_eq]
  rfl

/-- A READ whose prompt is printed waits for its answer (60_exceptions.md R235). -/
theorem stepUnder_resume_unanswered (p : Parameters) {s : State} (hr : s.rs = .executing)
    (hp : s.prompted = true) (ha : s.answers = []) : stepUnder p s = .next s := by
  simp only [stepUnder, stepWith_resume p _ s hr hp, resumeRead, ha]

/-- A Paused core waits for its acknowledgment (60_exceptions.md R235). -/
theorem stepUnder_paused_unacknowledged (p : Parameters) {s : State} (hr : s.rs = .paused)
    (ha : s.acks = []) : stepUnder p s = .next s := by
  simp only [stepUnder, stepWith_paused p _ s hr, pausedStep, ha]

/-- A core that waits at its printed prompt stays as it is (60_exceptions.md R235). -/
theorem stepUnder_of_waiting (p : Parameters) {s : State} (h : s.Waiting) : stepUnder p s = .next s := by
  rcases h with ⟨hr, hp, ha⟩ | ⟨hr, hp, ha⟩ | ⟨hr, ha⟩
  · rw [stepUnder_entry_unanswered p hr ha, printedAtEntry, if_pos hp, ← hp]
  · exact stepUnder_resume_unanswered p hr hp ha
  · exact stepUnder_paused_unacknowledged p hr ha

/-- Settles O21: the waits, and the first step of an entry. -/
theorem unansweredPromptHoldsTheCore : Obligations.UnansweredPromptHoldsTheCore := by
  refine ⟨fun s h => (step_eq s).trans (stepUnder_of_waiting hardware h), fun s hr hp ha => ?_⟩
  rw [step_eq, stepUnder_entry_unanswered hardware hr ha, printedAtEntry, hp]
  rfl

end Sys2Proof.Machine

end

/-! ## Proofs: faults are precise -/

section

open Sys2Proof.Claims

namespace Sys2Proof.Machine

/-- What the effect of an instruction makes of the run state: it is kept, or HALT ends the run, or PAUSE
pauses and executes on (10_state.md R27). -/
theorem Effect.rs_cases {p : Parameters} {i : Instr} {s t : State} (h : Effect p i s t) :
    t.rs = s.rs ∨ t.rs = .halted .halt ∨ t.rs = .paused ∨ t.rs = .executing := by
  cases i with
  | read a =>
    rcases h with ⟨_, rfl⟩ | ⟨_, _, _, _, _, rfl⟩
    · exact .inl rfl
    · exact .inl rfl
  | write a | store a =>
    obtain ⟨_, rfl⟩ := h
    exact .inl rfl
  | load a | add a | subtract a | divide a | multiply a =>
    obtain ⟨v, rfl⟩ := h.of_accumulator (a := a) (by simp)
    exact .inl rfl
  | branch n =>
    obtain rfl := h
    exact .inl rfl
  | branchNeg n | branchZero n =>
    rcases h with ⟨_, rfl⟩ | ⟨_, rfl⟩
    · exact .inl rfl
    · exact .inl rfl
  | halt x =>
    obtain rfl := h
    exact .inr (.inl rfl)
  | pause x =>
    rcases h with ⟨_, rfl⟩ | ⟨_, _, _, rfl⟩
    · exact .inr (.inr (.inl rfl))
    · rw [acknowledge_eq]
      exact .inr (.inr (.inr rfl))

/-- An effect is no fault: a run that ends with one in this instruction ends in its fault branch. -/
theorem exec_eq_fault {i : Instr} {s t : State} {c : FaultCause} (h : exec i s = .next t)
    (hc : t.rs = .halted (.fault c)) (hne : s.rs ≠ t.rs) : t = faulted (faultBase i s) c := by
  rcases exec_cases i s t h with ⟨c', rfl⟩ | he
  · obtain rfl : c' = c := by simpa using hc
    exact State.runtimeFault_eq hardware _ c'
  · rcases he.rs_cases with e | e | e | e
    · exact absurd e.symm hne
    · cases e.symm.trans hc
    · cases e.symm.trans hc
    · cases e.symm.trans hc

/-- Settles O25: the fault is taken in a state that differs by READ's prompt and integer at most. -/
theorem faultingInstructionLeavesAccMemoryAndPc :
    Obligations.FaultingInstructionLeavesAccMemoryAndPc := by
  intro i s t c h hc hne
  rw [exec_eq_fault h hc hne]
  rcases faultBase_cases i s with e | e <;> rw [e]
  · refine ⟨rfl, sameCells_of_mem_eq hardware rfl, rfl, ⟨rfl, rfl, rfl, rfl⟩, [], .inl rfl, ?_⟩
    rw [List.append_nil]
    rfl
  · exact ⟨rfl, sameCells_of_mem_eq hardware rfl, rfl, ⟨rfl, rfl, rfl, rfl⟩,
      [.readPrompt], .inr rfl, rfl⟩

end Sys2Proof.Machine

end

/-! ## Proofs: the image files that are refused -/

section

namespace Sys2Proof.Machine

/-- Lines that are refused behind the cells already read, whatever more cells come between, are refused
behind any other lines too: what stands before them is refused itself, or only adds cells. -/
theorem readLines_append_refused (before : List Text) {ts : List Text} {cells : List (Nat × Int)}
    (h : ∀ d cells', cells <:+ cells' → readLines ts d cells' = .refused .imageFile)
    (d : Option Text) : readLines (before ++ ts) d cells = .refused .imageFile := by
  induction before generalizing d cells with
  | nil => exact h d cells (List.suffix_refl cells)
  | cons t before ih =>
    rw [List.cons_append, readLines]
    split
    · rfl
    · split
      · rfl
      · exact ih h _
    · split
      · rfl
      · exact ih (fun d cells' hs => h d cells' ((List.suffix_cons _ _).trans hs)) d

/-- A line that cannot be read is refused. -/
theorem readLines_of_readLine_eq_none {line : Text} (h : readLine line = none) (after : List Text)
    (d : Option Text) (cells : List (Nat × Int)) :
    readLines (line :: after) d cells = .refused .imageFile := by
  rw [readLines, h]

/-- A line for a location that an earlier line named is refused. -/
theorem readLines_of_repeated {line : Text} {l : Nat} {w w' : Int} {cells : List (Nat × Int)}
    (h : readLine line = some (.cell l w')) (hmem : (l, w) ∈ cells) (after : List Text)
    (d : Option Text) :
    readLines (line :: after) d cells = .refused .imageFile := by
  have hany : cells.any (fun c => c.1 == l) = true :=
    List.any_eq_true.mpr ⟨_, hmem, beq_self_eq_true l⟩
  simp only [readLines, h, if_pos hany]

/-- A line for a location, with a second one for it somewhere behind: one of the two is refused. -/
theorem readLines_of_named_twice {line line' : Text} {l : Nat} {w w' : Int}
    (h : readLine line = some (.cell l w)) (h' : readLine line' = some (.cell l w'))
    (between after : List Text) (d : Option Text) (cells : List (Nat × Int)) :
    readLines (line :: between ++ line' :: after) d cells = .refused .imageFile := by
  rw [List.cons_append, readLines, h]
  simp only
  split
  · rfl
  · exact readLines_append_refused between
      (fun d _ hs => readLines_of_repeated h' (hs.mem List.mem_cons_self) after d) d

/-- Settles O59: the lines from the first bad one on are refused whatever was read before. -/
theorem imageFileRefusesARepeatedOrMalformedLine :
    Obligations.ImageFileRefusesARepeatedOrMalformedLine := by
  constructor
  · intro before after line h
    exact readLines_append_refused before
      (fun d cells _ => readLines_of_readLine_eq_none h after d cells) none
  · intro before between after line line' l w w' h h'
    rw [List.append_assoc]
    exact readLines_append_refused before
      (fun d cells _ => readLines_of_named_twice h h' between after d cells) none

end Sys2Proof.Machine

end
